-- ==== Sys2Proof/Word.lean ====
section
/-! DEFINITION. The widths of the datapath (spec/00_scope.md R7, R12 to R15): u32, u64, byte, byte sequences and the
lane pair. A `BitVec w` is an element of Z/2^w, with the wrap-around arithmetic of R13. -/

namespace Sys2Proof

/-- A `byte` of R14. -/
abbrev Byte := BitVec 8

/-- A `u32` of R14. -/
abbrev Word32 := BitVec 32

/-- A `u64` of R14. -/
abbrev Word64 := BitVec 64

/-- A byte sequence of R15, in stream order: the head is `s[0]`, the first byte delivered (R61). -/
abbrev Bytes := List Byte

/-- A Digest-128 or a lane pair `(h1, h2)`: lane 1 is `h1`, lane 2 is `h2` (R7 and the glossary of spec/00_scope.md). -/
structure Lanes where
  h1 : Word64
  h2 : Word64
  deriving DecidableEq, Repr

end Sys2Proof
end

