-- ==== Sys2Proof/Config.lean ====
section
/-! DEFINITION. The parameters the spec gives the model (spec/00_scope.md R8 to R11). `N_ACC` (R8) is the length of the
context bank in `Machine.State` and so needs no field here (log 2). -/

namespace Sys2Proof

/-- The two values of the parameter TOTAL_OVERFLOW (R11). -/
inductive TotalOverflow where
  /-- ACC[c].TOTAL is computed modulo 2^64. -/
  | wrap
  /-- An ACC_WRITE that would carry ACC[c].TOTAL past 2^64 - 1 is a model fault (R233, R277). -/
  | fault
  deriving DecidableEq, Repr

/-- The parameters that are fixed for one machine and constant in every run. -/
structure Config where
  /-- MAX_PAYLOAD, the largest DATA length in bytes (R9). -/
  maxPayload : Nat
  /-- TOTAL_OVERFLOW (R11). -/
  totalOverflow : TotalOverflow
  deriving DecidableEq, Repr

/-- The spec's defaults: MAX_PAYLOAD = 2^64 - 1 (R9) and TOTAL_OVERFLOW = wrap (R11). -/
def Config.standard : Config where
  maxPayload := 2 ^ 64 - 1
  totalOverflow := .wrap

/-- The legal values of MAX_PAYLOAD: `0 <= MAX_PAYLOAD <= 2^64 - 1` (R9). -/
abbrev Config.Legal (c : Config) : Prop := c.maxPayload ≤ 2 ^ 64 - 1

/-- One less than BEAT_BYTES. OPEN (R10, D20): a constant without a body, so no proof can see its value (log 7). -/
opaque Config.beatBytesPred : Nat

/-- BEAT_BYTES, the width in bytes of one data-port transfer (R10). It is at least 1. -/
def Config.beatBytes : Nat := Config.beatBytesPred + 1

end Sys2Proof
end

