-- ==== Sys2Proof/Machine/Bytes.lean ====
section
/-! DEFINITION. Byte sequences as integers and back (spec/00_scope.md R15 to R18): little-endian assembly and
serialization, and the two memory primitives over a command's byte sequences. -/

namespace Sys2Proof.Machine

/-- `LE_w(s)` of R16, by shift and or as R64 asks: `s[0]` in bits 7:0, `s[1]` in bits 15:8, missing high bytes zero. -/
def leWord (w : Nat) : Bytes → BitVec w
  | [] => 0
  | b :: rest => b.setWidth w ||| (leWord w rest <<< 8)

/-- `LEbytes_n(v)` of R17: element i is `v[8*i+7 : 8*i]`. -/
def leBytes (n : Nat) {w : Nat} (v : BitVec w) : Bytes :=
  (List.range n).map fun i => v.extractLsb' (8 * i) 8

/-- `s[a..b)` of R15. -/
def slice (s : Bytes) (a b : Nat) : Bytes := (s.take b).drop a

/-- `MemRead(off, w/8)` of R18: `LE_w(DATA[off .. off + w/8))`. -/
def memRead (w : Nat) (data : Bytes) (off : Nat) : BitVec w :=
  leWord w (slice data off (off + w / 8))

/-- `MemWrite(off, n, v)` of R18: bytes off .. off+n-1 of the output become `LEbytes_n(v)`. -/
def memWrite (out : Bytes) (off n : Nat) {w : Nat} (v : BitVec w) : Bytes :=
  out.take off ++ leBytes n v ++ out.drop (off + n)

end Sys2Proof.Machine
end

