-- ==== Sys2Proof/Machine/Port.lean ====
section
/-! DEFINITION. What crosses the command port: transactions (spec/30_encoding.md R90), status codes
(spec/60_exceptions.md R271), responses (R100), the host's events (spec/70_reset_and_hazards.md R313), and their form on
a byte-wide physical port (R66, R76). -/

namespace Sys2Proof

/-- One transaction (R90): the command word, the 64-bit operand and the input byte sequence. -/
structure Transaction where
  cmd  : Word32
  opnd : Word64
  data : Bytes
  deriving DecidableEq, Repr

/-- The status codes of R271, by name. -/
inductive Status where
  | ok
  | illegalOpc
  | reservedBits
  | badCtx
  | seedWidth
  | badOperand
  | noDigest
  | shortBuf
  deriving DecidableEq, Repr

/-- The u8 code of a status (R271). -/
def Status.code : Status → BitVec 8
  | .ok => 0x00
  | .illegalOpc => 0x01
  | .reservedBits => 0x02
  | .badCtx => 0x03
  | .seedWidth => 0x04
  | .badOperand => 0x05
  | .noDigest => 0x06
  | .shortBuf => 0x07

/-- The value of a response (R100). -/
inductive Value where
  | none
  | u32 (v : Word32)
  | lanes (l : Lanes)
  | bytes (s : Bytes)
  deriving DecidableEq, Repr

/-- One response `(status, value)` (R100). -/
structure Response where
  status : Status
  value  : Value
  deriving DecidableEq, Repr

/-- What the host can do to the core (R313): present a transaction, or raise the reset signal. -/
inductive HostEvent where
  | transaction (t : Transaction)
  | hardwareReset
  deriving DecidableEq, Repr

namespace Machine

/-- `SER128(h1, h2)` of spec/42_hash128.md R198 (and R65): lane 1's eight bytes, then lane 2's, each little-endian. -/
def ser128 (l : Lanes) : Bytes := leBytes 8 l.h1 ++ leBytes 8 l.h2

/-- A value on a byte-wide port (R66, R100): `LEbytes_4(v)`, `LEbytes_8(h1) ++ LEbytes_8(h2)`, or the bytes themselves. -/
def valueWire : Value → Bytes
  | .none => []
  | .u32 v => leBytes 4 v
  | .lanes l => leBytes 8 l.h1 ++ leBytes 8 l.h2
  | .bytes s => s

/-- How many beats of `beatBytes` bytes carry `data` (R76). -/
def beatCount (beatBytes : Nat) (data : Bytes) : Nat := (data.length + beatBytes - 1) / beatBytes

/-- Beat b of R76: its byte lane j carries `DATA[b*BEAT_BYTES + j]`; the last beat has only the bytes that are left. -/
def beat (beatBytes : Nat) (data : Bytes) (b : Nat) : Bytes := (data.drop (b * beatBytes)).take beatBytes

/-- DATA as it crosses a port that is `beatBytes` wide (R76), first beat first. -/
def beats (beatBytes : Nat) (data : Bytes) : List Bytes :=
  (List.range (beatCount beatBytes data)).map (beat beatBytes data)

/-- DATA on this machine's own port, whose width is the open parameter BEAT_BYTES (R10, R76). -/
def portBeats (data : Bytes) : List Bytes := beats Config.beatBytes data

end Machine

end Sys2Proof
end

