-- ==== Sys2Proof/Machine/State.lean ====
section
/-! DEFINITION. The machine's state, all the spec gives it (spec/10_state.md R30 to R45), with the parameters of the
machine (spec/00_scope.md R8 to R11) and the port's two sequences (spec/70_reset_and_hazards.md R308); the reasons a step
can stop (spec/60_exceptions.md R277); the state after reset (R300). -/

namespace Sys2Proof.Machine

/-- One accumulator context ACC[c] (R31 to R35). -/
structure AccCtx where
  /-- SEED (R31). -/
  seed  : Word64
  /-- H1, lane 1 (R32). -/
  h1    : Word64
  /-- H2, lane 2 (R32). -/
  h2    : Word64
  /-- TAIL, the cells TB[0..TLEN); TLEN is its length (R33, R34). -/
  tail  : Bytes
  /-- TOTAL, the byte counter (R35). -/
  total : Word64
  deriving DecidableEq, Repr

/-- A context just constructed with a seed: `(h1,h2) = (seed,seed)`, empty tail, zero counter (R230). -/
def AccCtx.fresh (seed : Word64) : AccCtx where
  seed := seed
  h1 := seed
  h2 := seed
  tail := []
  total := 0

/-- The state of the core between commands, and of its port. -/
structure State where
  /-- The contexts ACC[0], ..., ACC[N_ACC - 1]; N_ACC is the length (R8, R30; log 2). -/
  acc       : List AccCtx
  /-- The digest register DIG: `none` is DIG.VALID = 0, when H1 and H2 hold no value (R44, R45; log 3). -/
  dig       : Option Lanes
  /-- STATUS.LAST, bits 7:0 (R42). -/
  last      : BitVec 8
  /-- STATUS.STICKY, bits 14:8 (R42). -/
  sticky    : BitVec 7
  /-- The machine's parameters; no step changes them (R9, R11). -/
  cfg       : Config
  /-- What the host has presented and the core has not taken yet, in acceptance order (R72; log 4). -/
  pending   : List HostEvent
  /-- The responses returned so far, in order (R72, R308; log 4). -/
  responses : List Response
  deriving DecidableEq, Repr

/-- N_ACC (R8). -/
def State.nAcc (s : State) : Nat := s.acc.length

/-- Why the machine can stop. The hardware reports neither (R277). -/
inductive Fault where
  /-- Raised by ACC_WRITE when TOTAL_OVERFLOW = fault and the exact sum TOTAL + len(DATA) reaches 2^64: the spec gives the
  write no meaning (R11, R233, R277). Safe: the model stops where hardware might go on. -/
  | totalOverflow
  /-- Raised when a transaction is taken whose DATA is longer than MAX_PAYLOAD: it has no step (R9, R277, R312). Safe: the
  host must not present it. -/
  | payloadTooLong
  deriving DecidableEq, Repr

/-- Why an instruction can be refused. -/
inductive Refusal where
  /-- An instruction without a meaning, by its mnemonic. Safe. No arm of exec raises it: every instruction has its meaning. -/
  | notModelled (mnemonic : String)
  deriving DecidableEq, Repr

/-- The state after hardware reset of a core with N_ACC = `nAcc` and the given parameters (R300), with nothing presented
yet. -/
def State.resetWith (nAcc : Nat) (cfg : Config) : State where
  acc := List.replicate nAcc (AccCtx.fresh 0)
  dig := none
  last := 0
  sticky := 0
  cfg := cfg
  pending := []
  responses := []

/-- The state after hardware reset of the spec's default core: N_ACC = 1 (R8), MAX_PAYLOAD = 2^64 - 1 (R9) and
TOTAL_OVERFLOW = wrap (R11). -/
def State.reset : State := State.resetWith 1 Config.standard

end Sys2Proof.Machine
end

