-- ==== Sys2Proof/Machine/Flags.lean ====
section
/-! DEFINITION. The STATUS register, the core's only flags (spec/10_state.md R41 to R43). -/

namespace Sys2Proof.Machine

/-- STATUS as RD_STATUS reads it: LAST in bits 7:0, STICKY in bits 14:8, bits 31:15 zero (R42, R260). -/
def statusWord (sticky : BitVec 7) (last : BitVec 8) : Word32 := (sticky.setWidth 32 <<< 8) ||| last.setWidth 32

/-- STATUS.STICKY after a command completes with status `st`: bit `code - 1` is set when the code is not 0x00, and no bit
is cleared (R43). -/
def stickyAfter (sticky : BitVec 7) (st : Status) : BitVec 7 :=
  if st = .ok then sticky else sticky ||| (1#7 <<< (st.code.toNat - 1))

/-- STATUS, whole (R42). -/
def State.statusReg (s : State) : Word32 := statusWord s.sticky s.last

end Sys2Proof.Machine
end

