-- ==== Sys2Proof/Machine/Ops.lean ====
section
/-! DEFINITION. The shared operations: completing a command and failing one (the core's only exception primitive,
spec/00_scope.md R20, spec/60_exceptions.md R272), writing a context or the digest register, and hardware reset
(spec/70_reset_and_hazards.md R300). -/

namespace Sys2Proof.Machine

/-- The three outcomes of a step of this machine. -/
abbrev Result := Host.Outcome State Fault Refusal

/-- Any command completes: one response is returned (R100, R309), then STATUS is updated (R43). -/
def State.respond (s : State) (st : Status) (v : Value) : State :=
  { s with
    responses := s.responses ++ [⟨st, v⟩]
    last := st.code
    sticky := stickyAfter s.sticky st }

/-- `raise CmdError(code)`: the response has the code and no value, and only STATUS changes (R20, R272). -/
def State.fail (s : State) (code : Status) : State := s.respond code .none

/-- The command succeeds with a value: `respond (0x00, v)`, then `STATUS.LAST <- 0x00`. -/
def complete (s : State) (v : Value) : Result := .next (s.respond .ok v)

/-- The command ends with an error (R272). -/
def raise (s : State) (code : Status) : Result := .next (s.fail code)

/-- `ACC[c] <- a`; no other context is written (R238). -/
def State.setContext (s : State) (c : BitVec 4) (a : AccCtx) : State := { s with acc := s.acc.set c.toNat a }

/-- `DIG.H1 <- h1 ; DIG.H2 <- h2 ; DIG.VALID <- 1` (R44). -/
def State.setDigest (s : State) (l : Lanes) : State := { s with dig := some l }

/-- Hardware reset (R300): every context as ACC_INIT with seed 0 leaves it, DIG invalid, STATUS zero. The parameters, what
the host has still to present and the responses it already has stay (log 4). -/
def State.hardwareReset (s : State) : State :=
  { s with
    acc := s.acc.map fun _ => AccCtx.fresh 0
    dig := none
    last := 0
    sticky := 0 }

end Sys2Proof.Machine
end

