-- ==== Sys2Proof/Machine/Operands.lean ====
section
/-! DEFINITION. Every operand form: the two seeds (spec/30_encoding.md R94), the context, the digest register, and DATA that
must be empty or long enough (R93, R96), each with the check of spec/60_exceptions.md R273 that guards it (checks 3 to 7).
A meaning nests them in the order of R273. -/

namespace Sys2Proof.Machine

/-- `seed32` (R94): OPND[31:0] when SEEDSEL = 1, else 0. -/
def seed32 (seed : Option Word64) : Word32 := (seed.getD 0).extractLsb' 0 32

/-- `seed64` (R94): OPND when SEEDSEL = 1, else 0. -/
def seed64 (seed : Option Word64) : Word64 := seed.getD 0

/-- Check 3: E_BAD_CTX when CTX >= N_ACC, else go on with ACC[c] (R93, R273). -/
def withContext (s : State) (c : BitVec 4) (k : AccCtx → Result) : Result :=
  match s.acc[c.toNat]? with
  | none => raise s .badCtx
  | some a => k a

/-- Check 4: E_SEED_WIDTH when SEEDSEL = 1 and OPND[63:32] is not zero, else go on with seed32 (R94, R273). -/
def withSeed32 (s : State) (seed : Option Word64) (k : Word32 → Result) : Result :=
  if (seed.getD 0).extractLsb' 32 32 = 0 then k (seed32 seed) else raise s .seedWidth

/-- Check 5: E_BAD_OPERAND when DATA is not empty (R96, R273). -/
def withNoData (s : State) (data : Bytes) (k : Result) : Result :=
  if data.length = 0 then k else raise s .badOperand

/-- Check 6: E_NO_DIGEST when DIG.VALID = 0, else go on with the lane pair (R45, R273). -/
def withDigest (s : State) (k : Lanes → Result) : Result :=
  match s.dig with
  | none => raise s .noDigest
  | some l => k l

/-- Check 7: E_SHORT_BUF when the caller's buffer has fewer than 16 bytes (R204, R273). -/
def withBuffer (s : State) (data : Bytes) (k : Result) : Result :=
  if data.length < 16 then raise s .shortBuf else k

end Sys2Proof.Machine
end

