-- ==== Sys2Proof/Machine/Mixer.lean ====
section
/-! DEFINITION. Block M, the bit-mixing primitives (spec/40_mixer.md R129 to R134): pure functions, no state. -/

namespace Sys2Proof.Machine

/-- ROTL32 (R130). The amount port is 5 bits wide, so an amount of 32 or more cannot be presented (R129). -/
def rotl32 (x : Word32) (r : BitVec 5) : Word32 :=
  if r = 0 then x else (x <<< r.toNat) ||| (x >>> (32 - r.toNat))

/-- ROTL64 (R131). The amount port is 6 bits wide, so an amount of 64 or more cannot be presented (R129). -/
def rotl64 (x : Word64) (r : BitVec 6) : Word64 :=
  if r = 0 then x else (x <<< r.toNat) ||| (x >>> (64 - r.toNat))

/-- FMIX32, the 32-bit avalanche finalizer (R132). -/
def fmix32 (k : Word32) : Word32 :=
  let k := k ^^^ (k >>> 16)
  let k := k * 0x85ebca6b
  let k := k ^^^ (k >>> 13)
  let k := k * 0xc2b2ae35
  k ^^^ (k >>> 16)

/-- FMIX64, the 64-bit avalanche finalizer (R133). -/
def fmix64 (k : Word64) : Word64 :=
  let k := k ^^^ (k >>> 33)
  let k := k * 0xff51afd7ed558ccd
  let k := k ^^^ (k >>> 33)
  let k := k * 0xc4ceb9fe1a85ec53
  k ^^^ (k >>> 33)

end Sys2Proof.Machine
end

