-- ==== Sys2Proof/Machine/P128.lean ====
section
/-! DEFINITION. Block P128, the x64_128 block processor (spec/42_hash128.md R190 to R197). The accumulator uses the same
per-block step, tail step and finalization (R2). The serialization SER128 (R198) is in Machine/Port.lean. -/

namespace Sys2Proof.Machine

/-- `C1` (R190). -/
def c1x64 : Word64 := 0x87c37b91114253d5

/-- `C2` (R190). -/
def c2x64 : Word64 := 0x4cf5ad432745937f

/-- KMIX1_64, the lane-1 k-mix (R191). -/
def kmix1 (k1 : Word64) : Word64 := rotl64 (k1 * c1x64) 31 * c2x64

/-- KMIX2_64, the lane-2 k-mix: the constants the other way round, and a rotation by 33 (R192). -/
def kmix2 (k2 : Word64) : Word64 := rotl64 (k2 * c2x64) 33 * c1x64

/-- BLOCK128, the per-block step (R193): the h1 update reads the old h2, the h2 update the new h1. -/
def block128 (l : Lanes) (k1 k2 : Word64) : Lanes :=
  let h1 := l.h1 ^^^ kmix1 k1
  let h1 := rotl64 h1 27
  let h1 := h1 + l.h2
  let h1 := h1 * 5 + 0x52dce729
  let h2 := l.h2 ^^^ kmix2 k2
  let h2 := rotl64 h2 31
  let h2 := h2 + h1
  let h2 := h2 * 5 + 0x38495ab5
  ⟨h1, h2⟩

/-- BLOCK128 over the blocks 0, ..., nb - 1 of `data`, in order (R194, and the loop of R232). -/
def blocks128 (l : Lanes) (data : Bytes) (nb : Nat) : Lanes :=
  (List.range nb).foldl (fun l i => block128 l (memRead 64 data (16 * i)) (memRead 64 data (16 * i + 8))) l

/-- TAIL128 (R195): only the k-mixing, no lane combine. -/
def tail128 (l : Lanes) (t : Bytes) : Lanes :=
  let k2 := leWord 64 (t.drop 8)
  let h2 := l.h2 ^^^ kmix2 k2
  let k1 := leWord 64 (t.take 8)
  let h1 := l.h1 ^^^ kmix1 k1
  ⟨h1, h2⟩

/-- Stages F3 and F5 of R196: the second addition reads the new h1. -/
def crossAdd (l : Lanes) : Lanes :=
  let h1 := l.h1 + l.h2
  let h2 := l.h2 + h1
  ⟨h1, h2⟩

/-- FINAL128, the pipeline F1 to F5 (R196); `n` is the total input length. -/
def final128 (l : Lanes) (t : Bytes) (n : Word64) : Lanes :=
  let l := tail128 l t
  let l : Lanes := ⟨l.h1 ^^^ n, l.h2 ^^^ n⟩
  let l := crossAdd l
  let l : Lanes := ⟨fmix64 l.h1, fmix64 l.h2⟩
  crossAdd l

/-- HASH128_FN (R197). -/
def hash128Fn (data : Bytes) (seed : Word64) : Lanes :=
  let n := data.length
  let nb := n / 16
  let l := blocks128 ⟨seed, seed⟩ data nb
  final128 l (slice data (16 * nb) n) (BitVec.ofNat 64 n)

end Sys2Proof.Machine
end

