-- ==== Sys2Proof/Machine/Accumulator.lean ====
section
/-! DEFINITION. Block A, the incremental accumulator: ABSORB and ACC_DIGEST (spec/43_accumulator.md R232, R234) and its five
commands (R230, R231, R233, R235, R236). -/

namespace Sys2Proof.Machine

/-- The lane pair (H1, H2) of a context (R32). -/
def AccCtx.lanes (a : AccCtx) : Lanes := ⟨a.h1, a.h2⟩

/-- ABSORB (R232): the old tail and the new bytes, block by block; the rest is the new tail. -/
def absorb (a : AccCtx) (d : Bytes) : AccCtx :=
  let buf := a.tail ++ d
  let nb := buf.length / 16
  let l := blocks128 a.lanes buf nb
  { a with
    h1 := l.h1
    h2 := l.h2
    tail := slice buf (16 * nb) buf.length
    total := a.total + BitVec.ofNat 64 d.length }

/-- ACC_DIGEST (R234): finalization of a snapshot. It writes nothing. -/
def accDigest (a : AccCtx) : Lanes := final128 a.lanes a.tail a.total

/-- A context back at its own seed (R231). -/
def AccCtx.restart (a : AccCtx) : AccCtx :=
  { a with
    h1 := a.seed
    h2 := a.seed
    tail := []
    total := 0 }

/-- The write would carry TOTAL past 2^64 - 1 (the exact sum) and the machine's TOTAL_OVERFLOW is `fault` (R11, R233). -/
abbrev OverflowFaults (cfg : Config) (a : AccCtx) (d : Bytes) : Prop :=
  cfg.totalOverflow = .fault ∧ 2 ^ 64 ≤ a.total.toNat + d.length

/-- ACC_INIT (R230). -/
def execAccInit (ctx : BitVec 4) (seed : Option Word64) (data : Bytes) (s : State) : Result :=
  withContext s ctx fun _ =>
    withNoData s data <|
      complete (s.setContext ctx (AccCtx.fresh (seed64 seed))) .none

/-- ACC_RESET (R231): SEED is kept. -/
def execAccReset (ctx : BitVec 4) (data : Bytes) (s : State) : Result :=
  withContext s ctx fun a =>
    withNoData s data <|
      complete (s.setContext ctx a.restart) .none

/-- ACC_WRITE (R233). -/
def execAccWrite (ctx : BitVec 4) (data : Bytes) (s : State) : Result :=
  withContext s ctx fun a =>
    if OverflowFaults s.cfg a data then .fault .totalOverflow
    else complete (s.setContext ctx (absorb a data)) .none

/-- ACC_SUM (R235): DATA with the digest appended; neither ACC[c] nor DIG is written. -/
def execAccSum (ctx : BitVec 4) (data : Bytes) (s : State) : Result :=
  withContext s ctx fun a =>
    complete s (.bytes (data ++ ser128 (accDigest a)))

/-- ACC_SUM128 (R236): the digest is the response and is loaded into DIG; ACC[c] is not written. -/
def execAccSum128 (ctx : BitVec 4) (data : Bytes) (s : State) : Result :=
  withContext s ctx fun a =>
    withNoData s data <|
      let g := accDigest a
      complete (s.setDigest g) (.lanes g)

end Sys2Proof.Machine
end

