-- ==== Sys2Proof/Machine/Digest.lean ====
section
/-! DEFINITION. The three views of the digest register (spec/42_hash128.md R202 to R204). -/

namespace Sys2Proof.Machine

/-- DIG_LANES (R202). -/
def execDigLanes (data : Bytes) (s : State) : Result :=
  withNoData s data <|
    withDigest s fun l =>
      complete s (.lanes l)

/-- DIG_BYTES (R203). -/
def execDigBytes (data : Bytes) (s : State) : Result :=
  withNoData s data <|
    withDigest s fun l =>
      complete s (.bytes (ser128 l))

/-- DIG_PUT (R204): bytes 0 to 15 of the buffer are replaced, the rest come back unchanged. -/
def execDigPut (data : Bytes) (s : State) : Result :=
  withDigest s fun l =>
    withBuffer s data <|
      complete s (.bytes (ser128 l ++ slice data 16 data.length))

end Sys2Proof.Machine
end

