-- ==== Sys2Proof/Machine/P32.lean ====
section
/-! DEFINITION. Block P32, the x86_32 one-shot hash over a whole byte sequence (spec/41_hash32.md R160 to R166). -/

namespace Sys2Proof.Machine

/-- `c1_32` (R160, C5). -/
def c1x32 : Word32 := 0xcc9e2d51

/-- `c2_32` (R160, C5). -/
def c2x32 : Word32 := 0x1b873593

/-- KMIX32 (R161). -/
def kmix32 (k : Word32) : Word32 := rotl32 (k * c1x32) 15 * c2x32

/-- BLOCK32, the per-block step (R162). -/
def block32 (h k : Word32) : Word32 :=
  let h := h ^^^ kmix32 k
  let h := rotl32 h 13
  h * 5 + 0xe6546b64

/-- BLOCK32 over the blocks 0, ..., nb - 1 of `data`, in order (R163). -/
def blocks32 (h : Word32) (data : Bytes) (nb : Nat) : Word32 :=
  (List.range nb).foldl (fun h i => block32 h (memRead 32 data (4 * i))) h

/-- TAIL32 (R164): no rotate and no multiply-add. -/
def tail32 (h : Word32) (t : Bytes) : Word32 := h ^^^ kmix32 (leWord 32 t)

/-- FINAL32 (R165): xors the low 32 bits of the length. -/
def final32 (h : Word32) (n : Nat) : Word32 := fmix32 (h ^^^ BitVec.ofNat 32 n)

/-- HASH32_FN (R166). -/
def hash32Fn (data : Bytes) (seed : Word32) : Word32 :=
  let n := data.length
  let nb := n / 4
  let h := blocks32 seed data nb
  let h := tail32 h (slice data (4 * nb) n)
  final32 h n

end Sys2Proof.Machine
end

