-- ==== Sys2Proof/Machine/Hash.lean ====
section
/-! DEFINITION. The one-shot commands HASH32 (spec/41_hash32.md R167) and HASH128 (spec/42_hash128.md R201). -/

namespace Sys2Proof.Machine

/-- HASH32 (R167). -/
def execHash32 (seed : Option Word64) (data : Bytes) (s : State) : Result :=
  withSeed32 s seed fun seed =>
    complete s (.u32 (hash32Fn data seed))

/-- HASH128 (R201): the digest is the response and is loaded into DIG. -/
def execHash128 (seed : Option Word64) (data : Bytes) (s : State) : Result :=
  let g := hash128Fn data (seed64 seed)
  complete (s.setDigest g) (.lanes g)

end Sys2Proof.Machine
end

