-- ==== Sys2Proof/Machine/StatusRead.lean ====
section
/-! DEFINITION. The status command RD_STATUS (spec/44_status.md R260). -/

namespace Sys2Proof.Machine

/-- RD_STATUS (R260): the value is STATUS before this command's own update. -/
def execRdStatus (data : Bytes) (s : State) : Result :=
  withNoData s data <|
    complete s (.u32 s.statusReg)

end Sys2Proof.Machine
end

