-- ==== Sys2Proof/Syntax.lean ====
section
/-! DEFINITION. The core's eleven commands (spec/30_encoding.md R92), one constructor per row of spec/opcode_table.json. An
instruction is a whole transaction (R90) whose command word the table accepts: it carries the transaction's DATA always
(R96), the context index CTX where the opcode has one (R93), and the seed where it takes one: `none` for SEEDSEL = 0, when
OPND is not read (R95), and `some OPND` for SEEDSEL = 1 (R94). -/

namespace Sys2Proof

/-- The commands of R92. -/
inductive Instr where
  /-- HASH32, opcode 0x01 (R167). -/
  | hash32 (seed : Option Word64) (data : Bytes)
  /-- HASH128, opcode 0x02 (R201). -/
  | hash128 (seed : Option Word64) (data : Bytes)
  /-- DIG_LANES, opcode 0x08 (R202). -/
  | digLanes (data : Bytes)
  /-- DIG_BYTES, opcode 0x09 (R203). -/
  | digBytes (data : Bytes)
  /-- DIG_PUT, opcode 0x0A (R204); the data are the caller's buffer. -/
  | digPut (data : Bytes)
  /-- ACC_INIT, opcode 0x10 (R230). -/
  | accInit (ctx : BitVec 4) (seed : Option Word64) (data : Bytes)
  /-- ACC_RESET, opcode 0x11 (R231). -/
  | accReset (ctx : BitVec 4) (data : Bytes)
  /-- ACC_WRITE, opcode 0x12 (R233); the data are the bytes to append. -/
  | accWrite (ctx : BitVec 4) (data : Bytes)
  /-- ACC_SUM, opcode 0x13 (R235); the data are what the digest is appended to. -/
  | accSum (ctx : BitVec 4) (data : Bytes)
  /-- ACC_SUM128, opcode 0x14 (R236). -/
  | accSum128 (ctx : BitVec 4) (data : Bytes)
  /-- RD_STATUS, opcode 0x30 (R260). -/
  | rdStatus (data : Bytes)
  deriving DecidableEq, Repr

end Sys2Proof
end

