-- ==== Sys2Proof/Machine/Dispatch.lean ====
section
/-! DEFINITION. One arm per command (spec/30_encoding.md R92), each one call of its meaning. -/

namespace Sys2Proof.Machine

def exec (i : Instr) (s : State) : Host.Outcome State Fault Refusal :=
  match i with
  | .hash32 seed data => Sys2Proof.Machine.execHash32 seed data s
  | .hash128 seed data => Sys2Proof.Machine.execHash128 seed data s
  | .digLanes data => Sys2Proof.Machine.execDigLanes data s
  | .digBytes data => Sys2Proof.Machine.execDigBytes data s
  | .digPut data => Sys2Proof.Machine.execDigPut data s
  | .accInit ctx seed data => Sys2Proof.Machine.execAccInit ctx seed data s
  | .accReset ctx data => Sys2Proof.Machine.execAccReset ctx data s
  | .accWrite ctx data => Sys2Proof.Machine.execAccWrite ctx data s
  | .accSum ctx data => Sys2Proof.Machine.execAccSum ctx data s
  | .accSum128 ctx data => Sys2Proof.Machine.execAccSum128 ctx data s
  | .rdStatus data => Sys2Proof.Machine.execRdStatus data s

end Sys2Proof.Machine
end

