-- ==== Sys2Proof/WellFormed.lean ====
section
/-! DEFINITION. Which instructions can be presented on some core at all. Every field has its width in its type, so the one
check left is DATA's length: `len(DATA) <= MAX_PAYLOAD <= 2^64 - 1` on every core (spec/00_scope.md R9, R90). A given
core's own MAX_PAYLOAD is checked where a transaction is taken (Machine/Fetch.lean). -/

namespace Sys2Proof

/-- The DATA of an instruction (R90, R96). -/
def Instr.data : Instr → Bytes
  | .hash32 _ data | .hash128 _ data | .digLanes data | .digBytes data | .digPut data | .accInit _ _ data
  | .accReset _ data | .accWrite _ data | .accSum _ data | .accSum128 _ data | .rdStatus data => data

/-- No core can be presented DATA longer than 2^64 - 1 bytes (R9). -/
abbrev Instr.WellFormed (i : Instr) : Prop := i.data.length ≤ 2 ^ 64 - 1

end Sys2Proof
end

