-- ==== Sys2Proof/Decode.lean ====
section
/-! DEFINITION. The command word: its fields (spec/30_encoding.md R91), the opcode map (R92), the match and mask table
(R99), the decoder, total on every transaction and rejecting by status (R97, R98, in the order of checks 1 and 2 of
spec/60_exceptions.md R273), and the encoder, from the same tables. -/

namespace Sys2Proof

/-- The rows of R92. -/
inductive Opcode where
  | hash32 | hash128 | digLanes | digBytes | digPut | accInit | accReset | accWrite | accSum | accSum128 | rdStatus
  deriving DecidableEq, Repr

/-- The value of OPC for each row of R92. -/
def Opcode.code : Opcode → BitVec 8
  | .hash32 => 0x01
  | .hash128 => 0x02
  | .digLanes => 0x08
  | .digBytes => 0x09
  | .digPut => 0x0A
  | .accInit => 0x10
  | .accReset => 0x11
  | .accWrite => 0x12
  | .accSum => 0x13
  | .accSum128 => 0x14
  | .rdStatus => 0x30

/-- Every assigned opcode, in the order of R92. -/
def Opcode.all : List Opcode :=
  [.hash32, .hash128, .digLanes, .digBytes, .digPut, .accInit, .accReset, .accWrite, .accSum, .accSum128, .rdStatus]

/-- The match column of R99. -/
def Opcode.cmdMatch : Opcode → Word32
  | .hash32 => 0x00000001
  | .hash128 => 0x00000002
  | .digLanes => 0x00000008
  | .digBytes => 0x00000009
  | .digPut => 0x0000000A
  | .accInit => 0x00000010
  | .accReset => 0x00000011
  | .accWrite => 0x00000012
  | .accSum => 0x00000013
  | .accSum128 => 0x00000014
  | .rdStatus => 0x00000030

/-- The mask column of R99. -/
def Opcode.cmdMask : Opcode → Word32
  | .hash32 => 0xFFFFEFFF
  | .hash128 => 0xFFFFEFFF
  | .digLanes => 0xFFFFFFFF
  | .digBytes => 0xFFFFFFFF
  | .digPut => 0xFFFFFFFF
  | .accInit => 0xFFFFE0FF
  | .accReset => 0xFFFFF0FF
  | .accWrite => 0xFFFFF0FF
  | .accSum => 0xFFFFF0FF
  | .accSum128 => 0xFFFFF0FF
  | .rdStatus => 0xFFFFFFFF

/-- OPC, bits 7:0 (R91). -/
def cmdOpc (w : Word32) : BitVec 8 := w.extractLsb' 0 8

/-- CTX, bits 11:8 (R91, R93). -/
def cmdCtx (w : Word32) : BitVec 4 := w.extractLsb' 8 4

/-- SEEDSEL, bit 12 (R91, R94). -/
def cmdSeedSel (w : Word32) : Bool := w.getLsbD 12

/-- The row whose OPC is `b`; none when `b` is unassigned (R92, R97). -/
def Opcode.ofCode (b : BitVec 8) : Option Opcode := Opcode.all.find? fun op => op.code == b

/-- Whether the word selects the row: `(W & mask) = match` (R99). -/
def Opcode.selectedBy (op : Opcode) (w : Word32) : Bool := w &&& op.cmdMask == op.cmdMatch

/-- The seed a transaction carries: OPND when SEEDSEL = 1, none when SEEDSEL = 0, where OPND is not read (R94, R95). -/
def seedOf (t : Transaction) : Option Word64 := if cmdSeedSel t.cmd then some t.opnd else none

/-- The operands of each row (R93, R94, R96). -/
def decodeOperands (op : Opcode) (t : Transaction) : Instr :=
  match op with
  | .hash32 => .hash32 (seedOf t) t.data
  | .hash128 => .hash128 (seedOf t) t.data
  | .digLanes => .digLanes t.data
  | .digBytes => .digBytes t.data
  | .digPut => .digPut t.data
  | .accInit => .accInit (cmdCtx t.cmd) (seedOf t) t.data
  | .accReset => .accReset (cmdCtx t.cmd) t.data
  | .accWrite => .accWrite (cmdCtx t.cmd) t.data
  | .accSum => .accSum (cmdCtx t.cmd) t.data
  | .accSum128 => .accSum128 (cmdCtx t.cmd) t.data
  | .rdStatus => .rdStatus t.data

/-- Checks 1 and 2 of R273, then the operands: an unassigned OPC is E_ILLEGAL_OPC (R97), an assigned OPC whose word does not
select its row is E_RESERVED_BITS (R98, R99). -/
def decode (t : Transaction) : Except Status Instr :=
  match Opcode.ofCode (cmdOpc t.cmd) with
  | none => .error .illegalOpc
  | some op => if op.selectedBy t.cmd then .ok (decodeOperands op t) else .error .reservedBits

/-- A command word of R91 from its fields: `match | (c << 8) | (SEEDSEL << 12)` (R167, R201, R230 to R236). -/
def commandWord (op : Opcode) (ctx : BitVec 4) (seedSel : Bool) : Word32 :=
  op.cmdMatch ||| (ctx.setWidth 32 <<< 8) ||| ((BitVec.ofBool seedSel).setWidth 32 <<< 12)

/-- A transaction of a row that takes a seed: SEEDSEL = 1 iff a seed is given, and OPND = 0 where it is not read (R102). -/
def seededTransaction (op : Opcode) (ctx : BitVec 4) (seed : Option Word64) (data : Bytes) : Transaction where
  cmd := commandWord op ctx seed.isSome
  opnd := seed.getD 0
  data := data

/-- The transaction that presents an instruction (R91, R102). -/
def encode : Instr → Transaction
  | .hash32 seed data => seededTransaction .hash32 0 seed data
  | .hash128 seed data => seededTransaction .hash128 0 seed data
  | .digLanes data => seededTransaction .digLanes 0 none data
  | .digBytes data => seededTransaction .digBytes 0 none data
  | .digPut data => seededTransaction .digPut 0 none data
  | .accInit ctx seed data => seededTransaction .accInit ctx seed data
  | .accReset ctx data => seededTransaction .accReset ctx none data
  | .accWrite ctx data => seededTransaction .accWrite ctx none data
  | .accSum ctx data => seededTransaction .accSum ctx none data
  | .accSum128 ctx data => seededTransaction .accSum128 ctx none data
  | .rdStatus data => seededTransaction .rdStatus 0 none data

/-- The transaction whose `nbits` low bits are `w`, as spec/opcode_table.json numbers them, every bit above them zero: CMD
is bits 31:0, OPND the 64 bits above it, DATA is empty (log 10). -/
def tableTransaction (nbits w : Nat) : Transaction where
  cmd := BitVec.ofNat 32 (w % 2 ^ nbits)
  opnd := BitVec.ofNat 64 (w % 2 ^ nbits / 2 ^ 32)
  data := []

/-- What the decoder reads from an instruction whose bits are `w`; none where it rejects. -/
def decodeTableWord (nbits w : Nat) : Option Instr :=
  match decode (tableTransaction nbits w) with
  | .ok i => some i
  | .error _ => none

end Sys2Proof
end

