-- ==== Sys2Proof/Machine/Fetch.lean ====
section
/-! DEFINITION. Taking the next thing the host has presented (spec/70_reset_and_hazards.md R309, R312, R313). The core fetches
no instructions (spec/20_memory.md R75): the oldest pending transaction is the next command (R72). -/

namespace Sys2Proof.Machine

/-- What taking the next event gives: an outcome without any instruction, or an instruction to run in a state. -/
inductive Taken where
  | outcome (o : Result)
  | instr (i : Instr) (s : State)

/-- MAX_PAYLOAD admits the transaction (R9, R312). -/
abbrev Presentable (s : State) (t : Transaction) : Prop := t.data.length ≤ s.cfg.maxPayload

/-- A transaction is taken: one that cannot be presented has no step (R277, R312); one whose word is illegal is answered
with its error (R97, R98, R309); any other is an instruction. -/
def takeTransaction (s : State) (t : Transaction) : Taken :=
  if Presentable s t then
    match decode t with
    | .ok i => .instr i s
    | .error e => .outcome (raise s e)
  else .outcome (.fault .payloadTooLong)

/-- The oldest event leaves the queue and is taken. With nothing presented the core is idle and all state persists (R283;
log 4). -/
def take (s : State) : Taken :=
  match s.pending with
  | [] => .outcome (.next s)
  | .hardwareReset :: rest => .outcome (.next { s with pending := rest }.hardwareReset)
  | .transaction t :: rest => takeTransaction { s with pending := rest } t

/-- The host presents a transaction that the core takes next: it stands before everything else still pending. -/
def State.present (s : State) (t : Transaction) : State := { s with pending := .transaction t :: s.pending }

end Sys2Proof.Machine
end

