-- ==== Sys2Proof/Machine/Step.lean ====
section
/-! DEFINITION. One step of the core: one transaction, whole (spec/20_memory.md R69, R72; spec/70_reset_and_hazards.md R308),
or one reset, or an idle step. -/

namespace Sys2Proof.Machine

/-- The step function of R308, over the transactions that State holds. -/
def step (s : State) : Host.Outcome State Fault Refusal :=
  match Sys2Proof.Machine.take s with
  | .outcome o => o
  | .instr i s' => Sys2Proof.Machine.exec i s'

/-- The state `s` with the transaction whose bits are `w` presented, so that the very next step takes it (log 10). -/
def State.withFetchWord (s : State) (nbits w : Nat) : State := s.present (tableTransaction nbits w)

end Sys2Proof.Machine
end

