-- ==== Sys2Proof/Machine/Script.lean ====
section
/-! DEFINITION. The host's command-script notation (spec/30_encoding.md R102, R103) and its pseudo-commands (R104): one line of
characters to the transaction it presents. This is the host's assembler, not a part of the core: the step never calls it
(logs 9, 11 and 12 for what the notation leaves open). -/

namespace Sys2Proof.Script

/-- Why a line is not a command. -/
inductive AsmError where
  /-- A character that starts no token, or a string that is not closed. -/
  | badToken
  /-- A bad escape or hexadecimal pair in a byte form. -/
  | badBytes
  /-- A literal that is no number, or does not fit its width (R102). -/
  | badLiteral
  /-- Not `c<n>` with n below 16 (R91, R102). -/
  | badContext
  /-- No form of R102 or R104. -/
  | badForm
  deriving DecidableEq, Repr

/-- One element of a quoted text: a character, or the byte of an escape. -/
inductive TextItem where
  | char (c : Char)
  | byte (b : Byte)
  deriving DecidableEq, Repr

inductive Token where
  /-- A mnemonic, keyword, context name or number. -/
  | word (cs : List Char)
  /-- A quoted text. -/
  | text (items : List TextItem)
  /-- A form `x"hh hh ..."`. -/
  | hex (bs : Bytes)
  /-- The empty byte sequence `[]` of R15. -/
  | empty
  /-- The concatenation sign. -/
  | plusPlus
  | comma
  | equals
  | openParen
  | closeParen
  deriving DecidableEq, Repr

def isWordChar (c : Char) : Bool := c.isAlphanum || c == '.' || c == '_'

def isSpace (c : Char) : Bool := c == ' ' || c == '\t' || c == '\r' || c == '\n'

/-- The leading word characters, and the rest. -/
def takeWord : List Char → List Char × List Char
  | [] => ([], [])
  | c :: rest => if isWordChar c then ((c :: (takeWord rest).1), (takeWord rest).2) else ([], c :: rest)

def digitValue (c : Char) : Option Nat :=
  if '0' ≤ c ∧ c ≤ '9' then some (c.toNat - 48)
  else if 'a' ≤ c ∧ c ≤ 'f' then some (c.toNat - 87)
  else if 'A' ≤ c ∧ c ≤ 'F' then some (c.toNat - 55)
  else none

/-- The value of a run of digits in a base; none for an empty run or a digit that is not of the base. -/
def digits (base : Nat) : Nat → List Char → Option Nat
  | acc, [] => some acc
  | acc, c :: rest =>
    match digitValue c with
    | some d => if d < base then digits base (acc * base + d) rest else none
    | none => none

/-- A decimal or `0x` hexadecimal literal (R102). -/
def number : List Char → Option Nat
  | [] => none
  | '0' :: 'x' :: c :: rest => digits 16 0 (c :: rest)
  | cs => digits 10 0 cs

def hexPair (a b : Char) : Except AsmError Byte :=
  match digits 16 0 [a, b] with
  | some v => .ok (BitVec.ofNat 8 v)
  | none => .error .badBytes

/-- After an opening quote: the items up to the closing one, and the rest of the line (R102). The first argument bounds the
length. -/
def lexText : Nat → List Char → Except AsmError (List TextItem × List Char)
  | 0, _ => .error .badToken
  | fuel + 1, cs =>
    match cs with
    | [] => .error .badToken
    | '"' :: rest => .ok ([], rest)
    | '\\' :: 'x' :: a :: b :: rest => do
      let v ← hexPair a b
      let (items, rest) ← lexText fuel rest
      .ok (.byte v :: items, rest)
    | '\\' :: c :: rest =>
      if c == '\\' || c == '"' then do
        let (items, rest) ← lexText fuel rest
        .ok (.byte (BitVec.ofNat 8 c.toNat) :: items, rest)
      else .error .badBytes
    | c :: rest => do
      let (items, rest) ← lexText fuel rest
      .ok (.char c :: items, rest)

/-- After `x"`: byte pairs with optional spaces, up to the closing quote (R102). -/
def lexHex : Nat → List Char → Except AsmError (Bytes × List Char)
  | 0, _ => .error .badToken
  | fuel + 1, cs =>
    match cs with
    | '"' :: rest => .ok ([], rest)
    | ' ' :: rest => lexHex fuel rest
    | a :: b :: rest => do
      let v ← hexPair a b
      let (bs, rest) ← lexHex fuel rest
      .ok (v :: bs, rest)
    | _ => .error .badToken

/-- The tokens of a line; `;` outside a quoted text starts a comment (R102). -/
def lex : Nat → List Char → Except AsmError (List Token)
  | 0, _ => .error .badToken
  | fuel + 1, cs =>
    match cs with
    | [] => .ok []
    | ';' :: _ => .ok []
    | ',' :: rest => do .ok (.comma :: (← lex fuel rest))
    | '=' :: rest => do .ok (.equals :: (← lex fuel rest))
    | '(' :: rest => do .ok (.openParen :: (← lex fuel rest))
    | ')' :: rest => do .ok (.closeParen :: (← lex fuel rest))
    | '+' :: '+' :: rest => do .ok (.plusPlus :: (← lex fuel rest))
    | '[' :: ']' :: rest => do .ok (.empty :: (← lex fuel rest))
    | '"' :: rest => do
      let (items, rest) ← lexText (rest.length + 1) rest
      .ok (.text items :: (← lex fuel rest))
    | 'x' :: '"' :: rest => do
      let (bs, rest) ← lexHex (rest.length + 1) rest
      .ok (.hex bs :: (← lex fuel rest))
    | c :: rest =>
      if isSpace c then lex fuel rest
      else if isWordChar c then do
        let (w, rest) := takeWord (c :: rest)
        .ok (.word w :: (← lex fuel rest))
      else .error .badToken

/-- The UTF-8 bytes of a character (R104; from general knowledge, as G3 says). -/
def utf8 (c : Char) : Bytes :=
  let n := c.toNat
  let cont (k : Nat) : Byte := BitVec.ofNat 8 (0x80 + n / 2 ^ k % 64)
  if n < 0x80 then [BitVec.ofNat 8 n]
  else if n < 0x800 then [BitVec.ofNat 8 (0xC0 + n / 2 ^ 6), cont 0]
  else if n < 0x10000 then [BitVec.ofNat 8 (0xE0 + n / 2 ^ 12), cont 6, cont 0]
  else [BitVec.ofNat 8 (0xF0 + n / 2 ^ 18), cont 12, cont 6, cont 0]

/-- A `<bytes>` text: only printable ASCII and the escapes (R102). -/
def textBytes : List TextItem → Except AsmError Bytes
  | [] => .ok []
  | .byte b :: rest => do .ok (b :: (← textBytes rest))
  | .char c :: rest =>
    if 0x20 ≤ c.toNat ∧ c.toNat < 0x7F then do .ok (BitVec.ofNat 8 c.toNat :: (← textBytes rest))
    else .error .badBytes

/-- The bytes of a `<string>` of ACC.WRITE_TEXT: UTF-8 (R104; log 11). DESIGN CHOICE: the spec does not define the form
`<string>`; here it is one quoted text with R102's escapes, an escape `\xHH` gives one raw byte, any other character is
taken, control characters too, and no `++` may follow (log 12). -/
def stringBytes (items : List TextItem) : Bytes :=
  items.flatMap fun
    | .byte b => [b]
    | .char c => utf8 c

/-- A literal of the given width: it must fit (R102). -/
def literal (w : Nat) (cs : List Char) : Except AsmError (BitVec w) :=
  match number cs with
  | some v => if v < 2 ^ w then .ok (BitVec.ofNat w v) else .error .badLiteral
  | none => .error .badLiteral

/-- One `<bytes>` form and what follows it (R102). -/
def bytesAtom : List Token → Except AsmError (Bytes × List Token)
  | .text items :: rest => do .ok (← textBytes items, rest)
  | .hex bs :: rest => .ok (bs, rest)
  | .empty :: rest => .ok ([], rest)
  | .word ['f', 'i', 'l', 'l'] :: .openParen :: .word n :: .comma :: .word b :: .closeParen :: rest =>
    match number n with
    | some n => do
      let b ← literal 8 b
      .ok (List.replicate n b, rest)
    | none => .error .badLiteral
  | _ => .error .badForm

/-- A whole operand `<bytes>`, with its concatenations, which must end the line (R102). -/
def bytesOperand : Nat → List Token → Except AsmError Bytes
  | 0, _ => .error .badForm
  | fuel + 1, ts => do
    let (bs, rest) ← bytesAtom ts
    match rest with
    | [] => .ok bs
    | .plusPlus :: rest => do .ok (bs ++ (← bytesOperand fuel rest))
    | _ => .error .badForm

/-- The operand `<bytes>` of a line. -/
def wholeBytes (ts : List Token) : Except AsmError Bytes := bytesOperand (ts.length + 1) ts

/-- `c<n>` (R102). -/
def contextName : List Char → Except AsmError (BitVec 4)
  | 'c' :: n =>
    match digits 10 0 n with
    | some v => if n ≠ [] ∧ v < 16 then .ok (BitVec.ofNat 4 v) else .error .badContext
    | none => .error .badContext
  | _ => .error .badContext

/-- `[seed=<literal>,] <bytes>` (R102); the literal has width `w`. -/
def seedAndBytes (w : Nat) : List Token → Except AsmError (Option Word64 × Bytes)
  | .word ['s', 'e', 'e', 'd'] :: .equals :: .word v :: .comma :: rest => do
    let v ← literal w v
    .ok (some (v.setWidth 64), ← wholeBytes rest)
  | ts => do .ok (none, ← wholeBytes ts)

/-- The operands of `.cmd` (R102): a raw transaction, any whatever. -/
def rawOperands : List Token → Except AsmError Transaction
  | [.word w] => do .ok ⟨← literal 32 w, 0, []⟩
  | [.word w, .comma, .word ['o', 'p', 'n', 'd'], .equals, .word v] => do .ok ⟨← literal 32 w, ← literal 64 v, []⟩
  | .word w :: .comma :: .word ['o', 'p', 'n', 'd'] :: .equals :: .word v :: .comma :: rest => do
    .ok ⟨← literal 32 w, ← literal 64 v, ← wholeBytes rest⟩
  | .word w :: .comma :: rest => do .ok ⟨← literal 32 w, 0, ← wholeBytes rest⟩
  | _ => .error .badForm

/-- A command of R102, with the mnemonic as R103 spells it, or a pseudo-command of R104 as it expands, but for `.cmd`. -/
def command (name : List Char) (ts : List Token) : Except AsmError Instr :=
  match name, ts with
  | ['H', 'A', 'S', 'H', '3', '2'], ts => do
    let (seed, data) ← seedAndBytes 32 ts
    .ok (.hash32 seed data)
  | ['H', 'A', 'S', 'H', '1', '2', '8'], ts => do
    let (seed, data) ← seedAndBytes 64 ts
    .ok (.hash128 seed data)
  | ['H', 'A', 'S', 'H', '1', '2', '8', 'X', '6', '4'], ts => do
    let (seed, data) ← seedAndBytes 64 ts
    .ok (.hash128 seed data)
  | ['D', 'I', 'G', '.', 'L', 'A', 'N', 'E', 'S'], [] => .ok (.digLanes [])
  | ['D', 'I', 'G', '.', 'B', 'Y', 'T', 'E', 'S'], [] => .ok (.digBytes [])
  | ['D', 'I', 'G', '.', 'P', 'U', 'T'], ts => do .ok (.digPut (← wholeBytes ts))
  | ['A', 'C', 'C', '.', 'I', 'N', 'I', 'T'], [.word c] => do .ok (.accInit (← contextName c) none [])
  | ['A', 'C', 'C', '.', 'I', 'N', 'I', 'T'], [.word c, .comma, .word ['s', 'e', 'e', 'd'], .equals, .word v] => do
    let c ← contextName c
    let v ← literal 64 v
    .ok (.accInit c (some v) [])
  | ['A', 'C', 'C', '.', 'N', 'E', 'W'], [.word c] => do .ok (.accInit (← contextName c) none [])
  | ['A', 'C', 'C', '.', 'R', 'E', 'S', 'E', 'T'], [.word c] => do .ok (.accReset (← contextName c) [])
  | ['A', 'C', 'C', '.', 'W', 'R', 'I', 'T', 'E'], .word c :: .comma :: rest => do
    .ok (.accWrite (← contextName c) (← wholeBytes rest))
  | ['A', 'C', 'C', '.', 'W', 'R', 'I', 'T', 'E', '_', 'T', 'E', 'X', 'T'], [.word c, .comma, .text items] => do
    .ok (.accWrite (← contextName c) (stringBytes items))
  | ['A', 'C', 'C', '.', 'S', 'U', 'M'], [.word c] => do .ok (.accSum (← contextName c) [])
  | ['A', 'C', 'C', '.', 'S', 'U', 'M'], .word c :: .comma :: rest => do
    .ok (.accSum (← contextName c) (← wholeBytes rest))
  | ['A', 'C', 'C', '.', 'S', 'U', 'M', '1', '2', '8'], [.word c] => do .ok (.accSum128 (← contextName c) [])
  | ['R', 'D', '.', 'S', 'T', 'A', 'T', 'U', 'S'], [] => .ok (.rdStatus [])
  | _, _ => .error .badForm

/-- One line of a script: no transaction for a blank or comment line, else the transaction it presents (R102). -/
def assembleLine (line : List Char) : Except AsmError (Option Transaction) := do
  match ← lex (line.length + 1) line with
  | [] => .ok none
  | .word ['.', 'c', 'm', 'd'] :: ts => do .ok (some (← rawOperands ts))
  | .word name :: ts => do .ok (some (encode (← command name ts)))
  | _ => .error .badForm

/-- A script: its lines in order (R102). -/
def assemble : List (List Char) → Except AsmError (List Transaction)
  | [] => .ok []
  | line :: rest => do
    let t ← assembleLine line
    .ok (t.toList ++ (← assemble rest))

end Sys2Proof.Script
end

