-- ==== Sys2Proof/Safety.lean ====
section
/-! DEFINITION. The terms in which claims speak of runs: the invariants of the state (spec/10_state.md R36, R37, R42, R43),
an error-free run (spec/60_exceptions.md R277) and the end of a run (spec/70_reset_and_hazards.md R308). -/

namespace Sys2Proof.Machine

/-- The context state invariant (R36). -/
abbrev AccCtx.Inv (a : AccCtx) : Prop := a.tail.length ≤ 15 ∧ a.total.toNat % 16 = a.tail.length

/-- STATUS is one of the legal ones (R42), and an error that was the last status has its sticky bit set (R43). -/
abbrev StatusInv (last : BitVec 8) (sticky : BitVec 7) : Prop :=
  last.toNat ≤ 7 ∧ (last ≠ 0 → sticky.getLsbD (last.toNat - 1) = true)

/-- The invariant of the machine: legal parameters (R8, R9), every context as R36 says, a legal STATUS. -/
abbrev State.Inv (s : State) : Prop :=
  (1 ≤ s.nAcc ∧ s.nAcc ≤ 16) ∧ s.cfg.Legal ∧ (∀ a ∈ s.acc, a.Inv) ∧ StatusInv s.last s.sticky

/-- What R37 says of a context with seed `seed` whose stream since its last initialisation is `stream`. -/
def AccCtx.Absorbed (a : AccCtx) (seed : Word64) (stream : Bytes) : Prop :=
  a.seed = seed ∧ a.tail.length ≤ 15 ∧ a.tail.length ≤ stream.length ∧
  (stream.length - a.tail.length) % 16 = 0 ∧
  a.tail = slice stream (stream.length - a.tail.length) stream.length ∧
  a.total.toNat = stream.length ∧
  a.lanes = blocks128 ⟨seed, seed⟩ stream ((stream.length - a.tail.length) / 16)

/-- No command has failed since hardware reset: `STATUS.STICKY = 0` (R277). -/
abbrev State.ErrorFree (s : State) : Prop := s.sticky = 0

/-- Nothing presented is left: the run has ended (R308). -/
abbrev State.RunEnded (s : State) : Prop := s.pending = []

/-- The observation of a run: its responses in order, and the final state (R308). -/
def State.observation (s : State) : List Response × State := (s.responses, s)

end Sys2Proof.Machine
end

