-- ==== Sys2Proof/Certificates/Slice0/Obligations.lean ====
section
/-! DEFINITION. The statements for the provers, one `def Obligations.<Name> : Prop` each, with the terms they are written in
(namespace Sys2Proof.Claims). Each docstring names the rule of spec/ it formalises. -/

namespace Sys2Proof.Claims

open Sys2Proof.Machine

/-- Exactly one response is returned, and STATUS is updated as R43 says; parameters and queue stay. -/
def Answers (s t : State) (st : Status) (v : Value) : Prop :=
  t.responses = s.responses ++ [⟨st, v⟩] ∧ t.last = st.code ∧
  (∀ n < 7, t.sticky.getLsbD n = (s.sticky.getLsbD n || decide (st.code.toNat = n + 1))) ∧
  t.cfg = s.cfg ∧ t.pending = s.pending

/-- The command fails with a code: no value, and nothing but STATUS changes (R272). -/
def Fails (s t : State) (code : Status) : Prop := Answers s t code .none ∧ t.acc = s.acc ∧ t.dig = s.dig

/-- The command succeeds with a value: status 0x00, LAST is 0x00 and no STICKY bit changes. -/
def Succeeds (s t : State) (v : Value) : Prop :=
  Answers s t .ok v ∧ t.sticky = s.sticky

/-- Only context `c` differs, and it is `a` now. -/
def WritesContext (s t : State) (c : BitVec 4) (a : AccCtx) : Prop :=
  t.acc.length = s.acc.length ∧ t.acc[c.toNat]? = some a ∧ ∀ j, j ≠ c.toNat → t.acc[j]? = s.acc[j]?

/-- RSVD is zero, CTX is zero unless it may be any, and SEEDSEL is zero unless it may be any (R98, R99). -/
def FieldsLegal (ctxAny selAny : Bool) (t : Transaction) : Prop :=
  t.cmd.extractLsb' 13 19 = 0 ∧ (ctxAny = true ∨ t.cmd.extractLsb' 8 4 = 0) ∧ (selAny = true ∨ t.cmd.getLsbD 12 = false)

/-- The words of one opcode, by the fields of R91: with legal fields the transaction is an instruction and its step is that
instruction's, in the state that presented it; with any other it is answered with E_RESERVED_BITS and nothing else happens. -/
def WordFor (opc : BitVec 8) (ctxAny selAny : Bool) (mk : Transaction → Instr) : Prop :=
  ∀ t : Transaction, t.cmd.extractLsb' 0 8 = opc →
    (FieldsLegal ctxAny selAny t → decode t = .ok (mk t) ∧
      ∀ s : State, t.data.length ≤ s.cfg.maxPayload → step (s.present t) = exec (mk t) s) ∧
    (¬ FieldsLegal ctxAny selAny t → decode t = .error .reservedBits ∧
      ∀ s : State, t.data.length ≤ s.cfg.maxPayload →
        ∃ s', step (s.present t) = .next s' ∧ Fails s s' .reservedBits)

/-- CMD.SEEDSEL and OPND as an optional seed (R94). -/
def seedField (t : Transaction) : Option Word64 := if t.cmd.getLsbD 12 then some t.opnd else none

/-- R99's table: opcode, match, mask. -/
def table : List (BitVec 8 × Word32 × Word32) :=
  [(0x01, 0x00000001, 0xFFFFEFFF), (0x02, 0x00000002, 0xFFFFEFFF), (0x08, 0x00000008, 0xFFFFFFFF),
   (0x09, 0x00000009, 0xFFFFFFFF), (0x0A, 0x0000000A, 0xFFFFFFFF), (0x10, 0x00000010, 0xFFFFE0FF),
   (0x11, 0x00000011, 0xFFFFF0FF), (0x12, 0x00000012, 0xFFFFF0FF), (0x13, 0x00000013, 0xFFFFF0FF),
   (0x14, 0x00000014, 0xFFFFF0FF), (0x30, 0x00000030, 0xFFFFFFFF)]

/-- The opcode of an instruction (R92). -/
def opcodeOf : Instr → BitVec 8
  | .hash32 _ _ => 0x01
  | .hash128 _ _ => 0x02
  | .digLanes _ => 0x08
  | .digBytes _ => 0x09
  | .digPut _ => 0x0A
  | .accInit _ _ _ => 0x10
  | .accReset _ _ => 0x11
  | .accWrite _ _ => 0x12
  | .accSum _ _ => 0x13
  | .accSum128 _ _ => 0x14
  | .rdStatus _ => 0x30

/-- `check` of R273, line by line; `none` when it raises nothing. -/
def check (s : State) (t : Transaction) : Option Status :=
  let op := t.cmd.extractLsb' 0 8
  if op ∉ table.map (·.1) then some .illegalOpc
  else if ∀ row ∈ table, row.1 = op → t.cmd &&& row.2.2 ≠ row.2.1 then some .reservedBits
  else if op ∈ [0x10#8, 0x11#8, 0x12#8, 0x13#8, 0x14#8] ∧ s.nAcc ≤ (t.cmd.extractLsb' 8 4).toNat then some .badCtx
  else if op = 0x01#8 ∧ t.cmd.getLsbD 12 = true ∧ t.opnd.extractLsb' 32 32 ≠ 0 then some .seedWidth
  else if op ∈ [0x08#8, 0x09#8, 0x10#8, 0x11#8, 0x14#8, 0x30#8] ∧ t.data.length ≠ 0 then some .badOperand
  else if op ∈ [0x08#8, 0x09#8, 0x0A#8] ∧ s.dig = none then some .noDigest
  else if op = 0x0A#8 ∧ t.data.length < 16 then some .shortBuf
  else none

/-- The one case in which a command that passes `check` has no meaning (R233, R277a). -/
def OverflowStops (s : State) (t : Transaction) : Prop :=
  t.cmd.extractLsb' 0 8 = 0x12 ∧ s.cfg.totalOverflow = .fault ∧
  ∃ a, s.acc[(t.cmd.extractLsb' 8 4).toNat]? = some a ∧ 2 ^ 64 ≤ a.total.toNat + t.data.length

/-- The context index of an instruction that has one (R93). -/
def contextOf : Instr → Option (BitVec 4)
  | .accInit c _ _ | .accReset c _ | .accWrite c _ | .accSum c _ | .accSum128 c _ => some c
  | .hash32 _ _ | .hash128 _ _ | .digLanes _ | .digBytes _ | .digPut _ | .rdStatus _ => none

/-- The shape of the value each command returns on success (R101). -/
def ValueShape (i : Instr) (v : Value) : Prop :=
  match i with
  | .hash32 _ _ | .rdStatus _ => ∃ w, v = .u32 w
  | .hash128 _ _ | .digLanes _ | .accSum128 _ _ => ∃ l, v = .lanes l
  | .digBytes _ => ∃ b, v = .bytes b ∧ b.length = 16
  | .digPut data => ∃ b, v = .bytes b ∧ b.length = data.length
  | .accSum _ data => ∃ b, v = .bytes b ∧ b.length = data.length + 16
  | .accInit _ _ _ | .accReset _ _ | .accWrite _ _ => v = .none

/-- Instructions one after the other, stopping at the first fault or refusal. -/
def execAll : List Instr → State → Result
  | [], s => .next s
  | i :: rest, s =>
    match exec i s with
    | .next t => execAll rest t
    | .fault f => .fault f
    | .refused r => .refused r

/-- Both runs go on with the same contexts and the same last response, or both stop for the same reason. -/
def SameContextsAndAnswer : Result → Result → Prop
  | .next t, .next t' => t.acc = t'.acc ∧ t.responses.getLast? = t'.responses.getLast?
  | .fault f, .fault f' => f = f'
  | _, _ => False

/-- The seed and the stream of context `c` (R37) after an instruction that went on: an initialisation or a reset that its
checks let through starts a stream, a write adds to it. -/
def history (c : BitVec 4) (i : Instr) (h : Word64 × Bytes) : Word64 × Bytes :=
  match i with
  | .accInit c' seed [] => if c' = c then (seed.getD 0, []) else h
  | .accReset c' [] => if c' = c then (h.1, []) else h
  | .accWrite c' d => if c' = c then (h.1, h.2 ++ d) else h
  | _ => h

/-- The same for whatever the host can do (R313): a transaction whose word is illegal changes nothing, and hardware reset is
as initialisation with seed 0. -/
def eventHistory (c : BitVec 4) (h : Word64 × Bytes) : HostEvent → Word64 × Bytes
  | .hardwareReset => (0, [])
  | .transaction t =>
    match decode t with
    | .ok i => history c i h
    | .error _ => h

/-- A block of 16 bytes as the two words of R194. -/
def blockStep (l : Lanes) (b : Bytes) : Lanes := block128 l (leWord 64 (b.take 8)) (leWord 64 (b.drop 8))

/-- "Winter is coming", the source's input of exactly one 16-byte block (spec/95 S4). -/
def winterIsComing : Bytes :=
  [0x57, 0x69, 0x6e, 0x74, 0x65, 0x72, 0x20, 0x69, 0x73, 0x20, 0x63, 0x6f, 0x6d, 0x69, 0x6e, 0x67]

/-- The exact sum of R16: `sum over i of s[i] << (8*i)`. -/
def leSum : Bytes → Nat
  | [] => 0
  | b :: rest => b.toNat + 256 * leSum rest

end Sys2Proof.Claims

open Sys2Proof Sys2Proof.Machine Sys2Proof.Claims

/-! ### Reset, steps and invariants -/

/-- R300: what hardware reset leaves, for every N_ACC and all parameters, from every state in which the signal comes, and in
the model's initial state; each context is as ACC_INIT with seed 0 leaves it. -/
def Obligations.ResetLeavesTheSpecifiedState : Prop :=
  (∀ n cfg, (State.resetWith n cfg).acc.length = n ∧ (∀ a ∈ (State.resetWith n cfg).acc, a = ⟨0, 0, 0, [], 0⟩) ∧
    (State.resetWith n cfg).dig = none ∧ (State.resetWith n cfg).last = 0 ∧ (State.resetWith n cfg).sticky = 0) ∧
  (∀ s rest, s.pending = .hardwareReset :: rest →
    ∃ t, step s = .next t ∧ t.acc.length = s.acc.length ∧ (∀ a ∈ t.acc, a = ⟨0, 0, 0, [], 0⟩) ∧ t.dig = none ∧
      t.last = 0 ∧ t.sticky = 0) ∧
  (∀ s c, c.toNat < s.nAcc → ∃ t, exec (.accInit c none []) s = .next t ∧ t.acc[c.toNat]? = some ⟨0, 0, 0, [], 0⟩)

/-- The model's initial state, and every reset state of a core with legal parameters, meets the invariant. -/
def Obligations.ResetMeetsInvariant : Prop :=
  State.reset.Inv ∧ ∀ n cfg, 1 ≤ n → n ≤ 16 → cfg.Legal → (State.resetWith n cfg).Inv

/-- The invariant (R8, R9, R33, R36, R42, R43) is kept by every step, from every state that meets it. -/
def Obligations.StepKeepsInvariant : Prop :=
  ∀ s t : State, s.Inv → step s = .next t → t.Inv

/-- R36, over every run: whatever the host presents and however often it resets, after any number of steps. -/
def Obligations.RunsKeepContextInvariant : Prop :=
  ∀ n cfg (events : List HostEvent) k t,
    Host.Core.run core k { State.resetWith n cfg with pending := events } = .next t →
      ∀ a ∈ t.acc, a.tail.length ≤ 15 ∧ a.total.toNat % 16 = a.tail.length

/-- R37, as an invariant of one context: it holds of every context after hardware reset and after an initialisation or reset of
the context in any state whatever, and every instruction, and every step that takes a transaction, keeps it with the stream
that results, as long as that is shorter than 2^64 bytes. -/
def Obligations.FullHistoryIsKept : Prop :=
  (∀ n cfg, ∀ a ∈ (State.resetWith n cfg).acc, a.Absorbed 0 []) ∧
  (∀ s : State, ∀ a ∈ s.hardwareReset.acc, a.Absorbed 0 []) ∧
  (∀ s (c : BitVec 4) seed, c.toNat < s.nAcc →
    ∃ t a, exec (.accInit c seed []) s = .next t ∧ t.acc[c.toNat]? = some a ∧ a.Absorbed (seed.getD 0) []) ∧
  (∀ s (c : BitVec 4) a, s.acc[c.toNat]? = some a →
    ∃ t a', exec (.accReset c []) s = .next t ∧ t.acc[c.toNat]? = some a' ∧ a'.Absorbed a.seed []) ∧
  (∀ s t i (c : BitVec 4) a seed stream,
    s.acc[c.toNat]? = some a → a.Absorbed seed stream → (history c i (seed, stream)).2.length < 2 ^ 64 →
      exec i s = .next t →
        ∃ a', t.acc[c.toNat]? = some a' ∧
          a'.Absorbed (history c i (seed, stream)).1 (history c i (seed, stream)).2) ∧
  ∀ (s s' : State) (t : Transaction) (c : BitVec 4) a seed stream,
    s.acc[c.toNat]? = some a → a.Absorbed seed stream →
      (eventHistory c (seed, stream) (.transaction t)).2.length < 2 ^ 64 → step (s.present t) = .next s' →
        ∃ a', s'.acc[c.toNat]? = some a' ∧
          a'.Absorbed (eventHistory c (seed, stream) (.transaction t)).1 (eventHistory c (seed, stream) (.transaction t)).2

/-- A step takes the oldest event: a transaction that decodes is run as its instruction, in the state it leaves the queue
in; one that does not is answered with its error; one that is too long has no step; a reset resets; an idle core stays. That
the queue is state, that the idle core takes a step and that a reset leaves the queue alone is the model's choice (log 4). -/
def Obligations.StepTakesTheOldestEvent : Prop :=
  (∀ s t rest i, s.pending = .transaction t :: rest → t.data.length ≤ s.cfg.maxPayload → decode t = .ok i →
    step s = exec i { s with pending := rest }) ∧
  (∀ s t rest e, s.pending = .transaction t :: rest → t.data.length ≤ s.cfg.maxPayload → decode t = .error e →
    ∃ s', step s = .next s' ∧ Fails { s with pending := rest } s' e) ∧
  (∀ s t rest, s.pending = .transaction t :: rest → s.cfg.maxPayload < t.data.length →
    step s = .fault .payloadTooLong) ∧
  (∀ s rest, s.pending = .hardwareReset :: rest → step s = .next { s with pending := rest }.hardwareReset) ∧
  (∀ s, s.pending = [] → step s = .next s) ∧
  (∀ (s : State) nbits w, (s.withFetchWord nbits w).pending = .transaction (tableTransaction nbits w) :: s.pending)

/-! ### The command word and the checks -/

/-- R97 and R98: what each illegal word answers. -/
def Obligations.IllegalWordsAreAnswered : Prop :=
  ∀ (s : State) (t : Transaction), t.data.length ≤ s.cfg.maxPayload →
    let op := (t.cmd.extractLsb' 0 8).toNat
    ((op = 0x00 ∨ (0x03 ≤ op ∧ op ≤ 0x07) ∨ (0x0B ≤ op ∧ op ≤ 0x0F) ∨ (0x15 ≤ op ∧ op ≤ 0x2F) ∨ 0x31 ≤ op) →
      ∃ s', step (s.present t) = .next s' ∧ Fails s s' .illegalOpc) ∧
    ((op = 0x01 ∨ op = 0x02 ∨ (0x08 ≤ op ∧ op ≤ 0x0A) ∨ (0x10 ≤ op ∧ op ≤ 0x14) ∨ op = 0x30) →
      t.cmd.extractLsb' 13 19 ≠ 0 → ∃ s', step (s.present t) = .next s' ∧ Fails s s' .reservedBits)

/-- R99: a word selects an opcode exactly when `(W & mask) = match`; one that selects none is E_RESERVED_BITS when its OPC is
assigned and E_ILLEGAL_OPC when it is not. -/
def Obligations.CommandWordSelection : Prop :=
  ∀ t : Transaction,
    (∀ row ∈ table, (t.cmd &&& row.2.2 = row.2.1) ↔ ∃ i, decode t = .ok i ∧ opcodeOf i = row.1) ∧
    ((∀ row ∈ table, t.cmd &&& row.2.2 ≠ row.2.1) →
      let e := if t.cmd.extractLsb' 0 8 ∈ table.map (·.1) then Status.reservedBits else Status.illegalOpc
      decode t = .error e ∧ ∀ s : State, t.data.length ≤ s.cfg.maxPayload →
        ∃ s', step (s.present t) = .next s' ∧ Fails s s' e)

/-- R273: the first error in the order of `check` is the response; when it raises nothing, the command succeeds, but for the
write that R233 gives no meaning under TOTAL_OVERFLOW = fault. -/
def Obligations.CheckOrderDecidesTheResponse : Prop :=
  ∀ (s : State) (t : Transaction), t.data.length ≤ s.cfg.maxPayload →
    (∀ e, check s t = some e → ∃ s', step (s.present t) = .next s' ∧ Fails s s' e) ∧
    (check s t = none → OverflowStops s t → step (s.present t) = .fault .totalOverflow) ∧
    (check s t = none → ¬ OverflowStops s t → ∃ s' v, step (s.present t) = .next s' ∧ Succeeds s s' v)

/-- R272: whatever transaction is answered with an error code, the response has no value and nothing but STATUS changes; what
is still pending is next. -/
def Obligations.FailureTouchesOnlyStatus : Prop :=
  ∀ (s : State) (t : Transaction) s' st v,
    step (s.present t) = .next s' → s'.responses = s.responses ++ [⟨st, v⟩] → st ≠ .ok → Fails s s' st

/-- Decode and encode agree: every instruction, with every operand, is what its own transaction decodes to. -/
def Obligations.DecodeOfEncode : Prop :=
  ∀ i : Instr, decode (encode i) = .ok i

/-- The other direction: a transaction that decodes is the encoding of what it decodes to, but for an OPND that is not read
(R95). -/
def Obligations.EncodeOfDecode : Prop :=
  ∀ t i, decode t = .ok i → encode i = { t with opnd := if t.cmd.getLsbD 12 then t.opnd else 0 }

/-- R105's words, and the words R99's examples in spec/95 name, decode to the commands they stand for. -/
def Obligations.DecodeSampleWords : Prop :=
  decode ⟨0x00000001, 7, [0x68]⟩ = .ok (.hash32 none [0x68]) ∧
  decode ⟨0x00001001, 0x9747b28c, []⟩ = .ok (.hash32 (some 0x9747b28c) []) ∧
  decode ⟨0x00000002, 0, [0x68]⟩ = .ok (.hash128 none [0x68]) ∧
  decode ⟨0x00000008, 0, []⟩ = .ok (.digLanes []) ∧
  decode ⟨0x0000000A, 0, [0]⟩ = .ok (.digPut [0]) ∧
  decode ⟨0x00000010, 0, []⟩ = .ok (.accInit 0 none []) ∧
  decode ⟨0x00001310, 1, []⟩ = .ok (.accInit 3 (some 1) []) ∧
  decode ⟨0x00000012, 0, [0x68, 0x65]⟩ = .ok (.accWrite 0 [0x68, 0x65]) ∧
  decode ⟨0x00000213, 0, []⟩ = .ok (.accSum 2 []) ∧
  decode ⟨0x00000014, 0, []⟩ = .ok (.accSum128 0 []) ∧
  decode ⟨0x00000030, 0, []⟩ = .ok (.rdStatus []) ∧
  decode ⟨0x00000F12, 0, []⟩ = .ok (.accWrite 15 []) ∧
  decode ⟨0x00001012, 0, []⟩ = .error .reservedBits ∧
  decode ⟨0x00000003, 0, []⟩ = .error .illegalOpc

/-- R95: with SEEDSEL = 0 any OPND gives the same result, whatever the word. -/
def Obligations.UnreadOperandIsIgnored : Prop :=
  ∀ (s : State) (cmd : Word32) (opnd opnd' : Word64) (data : Bytes), cmd.getLsbD 12 = false →
    step (s.present ⟨cmd, opnd, data⟩) = step (s.present ⟨cmd, opnd', data⟩)

/-- R94: the seed each command uses, from CMD.SEEDSEL and OPND, and the one seed that is refused. -/
def Obligations.SeedAssembly : Prop :=
  ∀ t i, decode t = .ok i →
    (∀ seed data, i = .hash32 seed data →
      seed32 seed = (if t.cmd.getLsbD 12 then t.opnd.extractLsb' 0 32 else 0) ∧
      (t.cmd.getLsbD 12 = true → t.opnd.extractLsb' 32 32 ≠ 0 →
        ∀ s, ∃ s', exec i s = .next s' ∧ Fails s s' .seedWidth)) ∧
    (∀ seed data, i = .hash128 seed data → seed64 seed = if t.cmd.getLsbD 12 then t.opnd else 0) ∧
    (∀ c seed data, i = .accInit c seed data → seed64 seed = if t.cmd.getLsbD 12 then t.opnd else 0)

/-- R43: when any command completes with status code st, LAST becomes st, STICKY[st-1] is set if st is not 0x00, no other
STICKY bit changes, and the value is none for an error; RD_STATUS answers STATUS as it was before its own update; only
hardware reset clears a STICKY bit. -/
def Obligations.StatusUpdatedByEveryCommand : Prop :=
  (∀ (s : State) (t : Transaction) s', step (s.present t) = .next s' →
    ∃ st v, Answers s s' st v ∧ (st ≠ .ok → v = .none)) ∧
  (∀ s, ∃ t, exec (.rdStatus []) s = .next t ∧ t.last = 0 ∧
    t.responses = s.responses ++ [⟨.ok, .u32 (statusWord s.sticky s.last)⟩]) ∧
  (∀ s t, step s = .next t → (∀ rest, s.pending ≠ .hardwareReset :: rest) →
    ∀ n, s.sticky.getLsbD n = true → t.sticky.getLsbD n = true) ∧
  (∀ s rest, s.pending = .hardwareReset :: rest → ∃ t, step s = .next t ∧ t.sticky = 0)

/-- R101: the value each opcode returns on success. -/
def Obligations.ResponseValueByCommand : Prop :=
  ∀ i s t v, exec i s = .next t → t.responses = s.responses ++ [⟨.ok, v⟩] → ValueShape i v

/-! ### The eleven commands -/

/-- R167. -/
def Obligations.Hash32Command : Prop :=
  WordFor 0x01 false true (fun t => .hash32 (seedField t) t.data) ∧
  (∀ s seed data, (∀ v, seed = some v → v.extractLsb' 32 32 = 0) →
    ∃ t, exec (.hash32 seed data) s = .next t ∧
      Succeeds s t (.u32 (hash32Fn data ((seed.getD 0).extractLsb' 0 32))) ∧ t.acc = s.acc ∧ t.dig = s.dig) ∧
  (∀ s (v : Word64) data, v.extractLsb' 32 32 ≠ 0 →
    ∃ t, exec (.hash32 (some v) data) s = .next t ∧ Fails s t .seedWidth) ∧
  (∀ seed, hash32Fn [] seed = fmix32 seed) ∧
  hash32Fn [0x68, 0x65, 0x6c, 0x6c, 0x6f] 0 = 0x248bfa47

/-- R201, with the two vectors of the source for it (spec/95 S6 and S4): one that runs no block, and one that runs one. -/
def Obligations.Hash128Command : Prop :=
  WordFor 0x02 false true (fun t => .hash128 (seedField t) t.data) ∧
  (∀ s seed data, ∃ t, exec (.hash128 seed data) s = .next t ∧
    Succeeds s t (.lanes (hash128Fn data (seed.getD 0))) ∧ t.dig = some (hash128Fn data (seed.getD 0)) ∧
    t.acc = s.acc) ∧
  (∀ seed, hash128Fn [] seed = final128 ⟨seed, seed⟩ [] 0) ∧ hash128Fn [] 0 = ⟨0, 0⟩ ∧
  hash128Fn [0x68, 0x65, 0x6c, 0x6c, 0x6f] 0 = ⟨0xcbd8a7b341bd9b02, 0x5b1e906a48ae1d19⟩ ∧
  hash128Fn winterIsComing 0 = ⟨0x6c373b5d61dced95, 0xc549d8ea0c0bfb13⟩

/-- R202, with R45's refusal. -/
def Obligations.DigLanesCommand : Prop :=
  WordFor 0x08 false false (fun t => .digLanes t.data) ∧
  (∀ s l, s.dig = some l →
    ∃ t, exec (.digLanes []) s = .next t ∧ Succeeds s t (.lanes l) ∧ t.acc = s.acc ∧ t.dig = s.dig) ∧
  (∀ s data, data ≠ [] → ∃ t, exec (.digLanes data) s = .next t ∧ Fails s t .badOperand) ∧
  (∀ s, s.dig = none → ∃ t, exec (.digLanes []) s = .next t ∧ Fails s t .noDigest)

/-- R203, with R198's bytes: byte i is `h1[8i+7:8i]`, byte 8+i is `h2[8i+7:8i]`. -/
def Obligations.DigBytesCommand : Prop :=
  WordFor 0x09 false false (fun t => .digBytes t.data) ∧
  (∀ s l, s.dig = some l →
    ∃ t out, exec (.digBytes []) s = .next t ∧ Succeeds s t (.bytes out) ∧ t.acc = s.acc ∧ t.dig = s.dig ∧
      out.length = 16 ∧
      ∀ i < 8, out[i]? = some (l.h1.extractLsb' (8 * i) 8) ∧ out[8 + i]? = some (l.h2.extractLsb' (8 * i) 8)) ∧
  (∀ s data, data ≠ [] → ∃ t, exec (.digBytes data) s = .next t ∧ Fails s t .badOperand) ∧
  (∀ s, s.dig = none → ∃ t, exec (.digBytes []) s = .next t ∧ Fails s t .noDigest)

/-- R204: bytes 0 to 15 of the buffer become the serialized digest, the rest come back as they went in. -/
def Obligations.DigPutCommand : Prop :=
  WordFor 0x0A false false (fun t => .digPut t.data) ∧
  (∀ s l buf, s.dig = some l → 16 ≤ buf.length →
    ∃ t out, exec (.digPut buf) s = .next t ∧ Succeeds s t (.bytes out) ∧ t.acc = s.acc ∧ t.dig = s.dig ∧
      out.length = buf.length ∧ out.take 16 = ser128 l ∧ (∀ j, 16 ≤ j → out[j]? = buf[j]?) ∧
      out = memWrite (memWrite buf 0 8 l.h1) 8 8 l.h2) ∧
  (∀ s buf, s.dig = none → ∃ t, exec (.digPut buf) s = .next t ∧ Fails s t .noDigest) ∧
  (∀ s l buf, s.dig = some l → buf.length < 16 → ∃ t, exec (.digPut buf) s = .next t ∧ Fails s t .shortBuf)

/-- R230. -/
def Obligations.AccInitCommand : Prop :=
  WordFor 0x10 true true (fun t => .accInit (t.cmd.extractLsb' 8 4) (seedField t) t.data) ∧
  (∀ s (c : BitVec 4) seed, c.toNat < s.nAcc →
    ∃ t, exec (.accInit c seed []) s = .next t ∧ Succeeds s t .none ∧ t.dig = s.dig ∧
      WritesContext s t c ⟨seed.getD 0, seed.getD 0, seed.getD 0, [], 0⟩) ∧
  (∀ s (c : BitVec 4) seed data, s.nAcc ≤ c.toNat →
    ∃ t, exec (.accInit c seed data) s = .next t ∧ Fails s t .badCtx) ∧
  (∀ s (c : BitVec 4) seed data, c.toNat < s.nAcc → data ≠ [] →
    ∃ t, exec (.accInit c seed data) s = .next t ∧ Fails s t .badOperand)

/-- R231: SEED is not changed. -/
def Obligations.AccResetCommand : Prop :=
  WordFor 0x11 true false (fun t => .accReset (t.cmd.extractLsb' 8 4) t.data) ∧
  (∀ s (c : BitVec 4) a, s.acc[c.toNat]? = some a →
    ∃ t, exec (.accReset c []) s = .next t ∧ Succeeds s t .none ∧ t.dig = s.dig ∧
      WritesContext s t c ⟨a.seed, a.seed, a.seed, [], 0⟩) ∧
  (∀ s (c : BitVec 4) data, s.nAcc ≤ c.toNat →
    ∃ t, exec (.accReset c data) s = .next t ∧ Fails s t .badCtx) ∧
  (∀ s (c : BitVec 4) data, c.toNat < s.nAcc → data ≠ [] →
    ∃ t, exec (.accReset c data) s = .next t ∧ Fails s t .badOperand)

/-- R233 with ABSORB of R232: the old tail and the new bytes, block by block; SEED is not changed. -/
def Obligations.AccWriteCommand : Prop :=
  WordFor 0x12 true false (fun t => .accWrite (t.cmd.extractLsb' 8 4) t.data) ∧
  (∀ s (c : BitVec 4) a data, s.acc[c.toNat]? = some a →
    ¬ (s.cfg.totalOverflow = .fault ∧ 2 ^ 64 ≤ a.total.toNat + data.length) →
    ∃ t a', exec (.accWrite c data) s = .next t ∧ Succeeds s t .none ∧ t.dig = s.dig ∧ WritesContext s t c a' ∧
      a'.seed = a.seed ∧
      a'.lanes = blocks128 a.lanes (a.tail ++ data) ((a.tail ++ data).length / 16) ∧
      a'.tail = slice (a.tail ++ data) (16 * ((a.tail ++ data).length / 16)) (a.tail ++ data).length ∧
      a'.tail.length ≤ 15 ∧ a'.total.toNat = (a.total.toNat + data.length) % 2 ^ 64 ∧
      (data = [] → a.tail.length ≤ 15 → a' = a)) ∧
  (∀ s (c : BitVec 4) a data, s.acc[c.toNat]? = some a → s.cfg.totalOverflow = .fault →
    2 ^ 64 ≤ a.total.toNat + data.length → exec (.accWrite c data) s = .fault .totalOverflow) ∧
  (∀ s (c : BitVec 4) data, s.nAcc ≤ c.toNat →
    ∃ t, exec (.accWrite c data) s = .next t ∧ Fails s t .badCtx)

/-- R235 with ACC_DIGEST of R234: DATA with the digest's 16 bytes after it; neither ACC nor DIG is written. -/
def Obligations.AccSumCommand : Prop :=
  WordFor 0x13 true false (fun t => .accSum (t.cmd.extractLsb' 8 4) t.data) ∧
  (∀ s (c : BitVec 4) a data, s.acc[c.toNat]? = some a →
    ∃ t, exec (.accSum c data) s = .next t ∧
      Succeeds s t (.bytes (data ++ ser128 (final128 a.lanes a.tail a.total))) ∧ t.acc = s.acc ∧ t.dig = s.dig) ∧
  (∀ s (c : BitVec 4) data, s.nAcc ≤ c.toNat →
    ∃ t, exec (.accSum c data) s = .next t ∧ Fails s t .badCtx) ∧
  ser128 (final128 (AccCtx.fresh 0).lanes [] 0) = List.replicate 16 0

/-- R236: the digest is the response and is loaded into DIG; ACC is not written. -/
def Obligations.AccSum128Command : Prop :=
  WordFor 0x14 true false (fun t => .accSum128 (t.cmd.extractLsb' 8 4) t.data) ∧
  (∀ s (c : BitVec 4) a, s.acc[c.toNat]? = some a →
    ∃ t, exec (.accSum128 c []) s = .next t ∧ Succeeds s t (.lanes (final128 a.lanes a.tail a.total)) ∧
      t.acc = s.acc ∧ t.dig = some (final128 a.lanes a.tail a.total)) ∧
  (∀ s (c : BitVec 4) data, s.nAcc ≤ c.toNat →
    ∃ t, exec (.accSum128 c data) s = .next t ∧ Fails s t .badCtx) ∧
  (∀ s (c : BitVec 4) data, c.toNat < s.nAcc → data ≠ [] →
    ∃ t, exec (.accSum128 c data) s = .next t ∧ Fails s t .badOperand)

/-- R260 with R42's layout: LAST in bits 7:0, STICKY in bits 14:8, bits 31:15 zero, all as before this command. -/
def Obligations.RdStatusCommand : Prop :=
  WordFor 0x30 false false (fun t => .rdStatus t.data) ∧
  (∀ s, ∃ t v, exec (.rdStatus []) s = .next t ∧ Succeeds s t (.u32 v) ∧ t.acc = s.acc ∧ t.dig = s.dig ∧
    v.extractLsb' 0 8 = s.last ∧ v.extractLsb' 8 7 = s.sticky ∧ v.extractLsb' 15 17 = 0) ∧
  (∀ s data, data ≠ [] → ∃ t, exec (.rdStatus data) s = .next t ∧ Fails s t .badOperand)

/-! ### The datapath -/

/-- R163, R164, R166: HASH32_FN of any complete 4-byte blocks and a tail of 0 to 3 bytes: one BLOCK32 per block in order,
the tail's k-mix, the length, the finalizer. -/
def Obligations.Hash32OfBlocksAndTail : Prop :=
  ∀ (blocks : List Bytes) (tail : Bytes) (seed : Word32), (∀ b ∈ blocks, b.length = 4) → tail.length < 4 →
    hash32Fn (blocks.flatten ++ tail) seed =
      fmix32 ((blocks.foldl (fun h b => block32 h (leWord 32 b)) seed ^^^ kmix32 (leWord 32 tail)) ^^^
        BitVec.ofNat 32 (4 * blocks.length + tail.length))

/-- R194, R197: HASH128_FN of any complete 16-byte blocks and a tail of 0 to 15 bytes; with R193's worked values of the block
step, one row of spec/95 section 2.3 whose lanes and words are all ones, and one whose tail has bytes in both halves. -/
def Obligations.Hash128OfBlocksAndTail : Prop :=
  (∀ (blocks : List Bytes) (tail : Bytes) (seed : Word64), (∀ b ∈ blocks, b.length = 16) → tail.length < 16 →
    hash128Fn (blocks.flatten ++ tail) seed =
      final128 (blocks.foldl blockStep ⟨seed, seed⟩) tail (BitVec.ofNat 64 (16 * blocks.length + tail.length))) ∧
  block128 ⟨0, 0⟩ 0 0 = ⟨0x0000000052dce729, 0x00000001d699de82⟩ ∧
  block128 ⟨0, 0⟩ 0x69207265746e6957 0x676e696d6f632073 = ⟨0x6b3a22966e72cbfa, 0x52d55443a3fcca46⟩ ∧
  blockStep ⟨0, 0⟩ winterIsComing = ⟨0x6b3a22966e72cbfa, 0x52d55443a3fcca46⟩ ∧
  block128 ⟨BitVec.allOnes 64, BitVec.allOnes 64⟩ (BitVec.allOnes 64) (BitVec.allOnes 64) =
    ⟨0x5afdb6c4e814f338, 0x7765cc27813091de⟩ ∧
  hash128Fn [0x00, 0x01, 0x02, 0x03, 0x04, 0x05, 0x06, 0x07, 0x08, 0x09, 0x0a, 0x0b, 0x0c, 0x0d, 0x0e] 0 =
    ⟨0x47231598fd4925e9, 0xcd846dee88c67de9⟩

/-- R130, R131: bit i of a rotation by r is bit (i - r) mod w of the operand. -/
def Obligations.RotationMovesBits : Prop :=
  (∀ (x : Word32) (r : BitVec 5) (i : Nat), i < 32 →
    (rotl32 x r).getLsbD i = x.getLsbD ((i + 32 - r.toNat) % 32)) ∧
  (∀ (x : Word64) (r : BitVec 6) (i : Nat), i < 64 →
    (rotl64 x r).getLsbD i = x.getLsbD ((i + 64 - r.toNat) % 64))

/-- R135: FMIX32 and FMIX64 are permutations of their domain. -/
def Obligations.AvalanchesArePermutations : Prop :=
  Function.Bijective fmix32 ∧ Function.Bijective fmix64

/-- R161, R191, R192: the k-mixes are permutations, and map 0 to 0. -/
def Obligations.KMixesArePermutations : Prop :=
  Function.Bijective kmix32 ∧ Function.Bijective kmix1 ∧ Function.Bijective kmix2 ∧
  kmix32 0 = 0 ∧ kmix1 0 = 0 ∧ kmix2 0 = 0

/-- R16: LE_w(s) is the sum of s[i] << (8*i), for a sequence that fits the width. -/
def Obligations.LittleEndianAssemblyIsASum : Prop :=
  ∀ (w : Nat) (s : Bytes), 8 * s.length ≤ w → (leWord w s).toNat = leSum s

/-- R17 and R18: the elements of LEbytes; LE and LEbytes are inverse to each other at 8 and at 4 bytes; and what a MemWrite put
at an offset reads back as the value written. -/
def Obligations.LittleEndianRoundTrip : Prop :=
  (∀ v : Word64, leWord 64 (leBytes 8 v) = v) ∧ (∀ v : Word32, leWord 32 (leBytes 4 v) = v) ∧
  (∀ s : Bytes, s.length = 8 → leBytes 8 (leWord 64 s) = s) ∧
  (∀ s : Bytes, s.length = 4 → leBytes 4 (leWord 32 s) = s) ∧
  (∀ (n w : Nat) (v : BitVec w), (leBytes n v).length = n ∧
    ∀ i < n, (leBytes n v)[i]? = some (v.extractLsb' (8 * i) 8)) ∧
  (∀ (out : Bytes) (off : Nat) (v : Word64), off ≤ out.length → memRead 64 (memWrite out off 8 v) off = v)

/-- R199: the serialization of every lane pair decodes back to it; and on the machine, after a HASH128 the three views agree
with its response and with each other. -/
def Obligations.DigestViewsAgree : Prop :=
  (∀ l, leWord 64 (slice (ser128 l) 0 8) = l.h1 ∧ leWord 64 (slice (ser128 l) 8 16) = l.h2) ∧
  ∀ s seed data buf, 16 ≤ buf.length →
    ∃ l t1 t2 t3 t4 bs out,
      execAll [.hash128 seed data] s = .next t1 ∧ Succeeds s t1 (.lanes l) ∧
      exec (.digLanes []) t1 = .next t2 ∧ Succeeds t1 t2 (.lanes l) ∧
      exec (.digBytes []) t2 = .next t3 ∧ Succeeds t2 t3 (.bytes bs) ∧
      exec (.digPut buf) t3 = .next t4 ∧ Succeeds t3 t4 (.bytes out) ∧
      out.take 16 = bs ∧ leWord 64 (slice bs 0 8) = l.h1 ∧ leWord 64 (slice bs 8 16) = l.h2

/-- R164, R195: an empty tail leaves the hash alone, and an empty half of a 16-byte tail leaves its lane alone. -/
def Obligations.EmptyTailsChangeNothing : Prop :=
  (∀ h, tail32 h [] = h) ∧ (∀ l, tail128 l [] = l) ∧
  (∀ l t, t.length ≤ 8 → (tail128 l t).h2 = l.h2 ∧ (tail128 l t).h1 = l.h1 ^^^ kmix1 (leWord 64 t))

/-! ### The accumulator's laws -/

/-- R229: the control state TLEN and how many blocks fire. -/
def Obligations.ControlStateTransitions : Prop :=
  (∀ s t (c : BitVec 4) a data, s.acc[c.toNat]? = some a → exec (.accWrite c data) s = .next t →
    ∃ a', t.acc[c.toNat]? = some a' ∧ a'.tail.length = (a.tail.length + data.length) % 16 ∧
      a'.lanes = blocks128 a.lanes (a.tail ++ data) ((a.tail.length + data.length) / 16)) ∧
  (∀ s t (c : BitVec 4) seed, c.toNat < s.nAcc → exec (.accInit c seed []) s = .next t →
    ∃ a', t.acc[c.toNat]? = some a' ∧ a'.tail.length = 0) ∧
  (∀ s t (c : BitVec 4), c.toNat < s.nAcc → exec (.accReset c []) s = .next t →
    ∃ a', t.acc[c.toNat]? = some a' ∧ a'.tail.length = 0) ∧
  (∀ s t (c : BitVec 4) data, exec (.accSum c data) s = .next t ∨ exec (.accSum128 c data) s = .next t → t.acc = s.acc)

/-- R237: a query leaves the contexts unchanged, and every later accumulator command does and answers exactly what it would
have without the query. -/
def Obligations.QueriesLeaveTheStreamAlone : Prop :=
  ∀ s q t i (c c' : BitVec 4) data, (q = .accSum c data ∨ q = .accSum128 c data) → exec q s = .next t →
    t.acc = s.acc ∧ (contextOf i = some c' → SameContextsAndAnswer (exec i t) (exec i s))

/-- R238: a command on a context writes no other context, and reads none: two states that differ in other contexts only give
the same answer and the same context. -/
def Obligations.ContextsAreIndependent : Prop :=
  ∀ i (c : BitVec 4), contextOf i = some c →
    (∀ s t, exec i s = .next t → ∀ j, j ≠ c.toNat → t.acc[j]? = s.acc[j]?) ∧
    (∀ s t (acc' : List AccCtx), acc'.length = s.acc.length → acc'[c.toNat]? = s.acc[c.toNat]? → exec i s = .next t →
      ∃ t', exec i { s with acc := acc' } = .next t' ∧ t'.acc[c.toNat]? = t.acc[c.toNat]? ∧ { t' with acc := t.acc } = t)

/-- R239: any split of a byte string into consecutive chunks leaves the same context, and gives the same ACC_SUM and
ACC_SUM128 responses, as one write of it. -/
def Obligations.ChunkingInvariance : Prop :=
  ∀ s (c : BitVec 4) seed (chunks : List Bytes), c.toNat < s.nAcc → chunks.flatten.length < 2 ^ 64 →
    ∃ t t', execAll (.accInit c seed [] :: chunks.map (.accWrite c)) s = .next t ∧
      execAll [.accInit c seed [], .accWrite c chunks.flatten] s = .next t' ∧ t.acc = t'.acc ∧
      (∀ data, SameContextsAndAnswer (exec (.accSum c data) t) (exec (.accSum c data) t')) ∧
      SameContextsAndAnswer (exec (.accSum128 c []) t) (exec (.accSum128 c []) t')

/-- R240 on the running machine: the host presents ACC_INIT, any chunks of a string, and ACC_SUM128; the last response is the
one-shot digest of the whole string. The queue of what was presented is the model's form of a sequence (log 4). -/
def Obligations.OneShotEquivalence : Prop :=
  ∀ (s : State) (c : BitVec 4) (seed : Option Word64) (chunks : List Bytes) (rest : List HostEvent),
    c.toNat < s.nAcc → chunks.flatten.length < 2 ^ 64 → (∀ d ∈ chunks, d.length ≤ s.cfg.maxPayload) →
    s.pending = (encode (.accInit c seed []) :: chunks.map (fun d => encode (.accWrite c d)) ++
      [encode (.accSum128 c [])]).map .transaction ++ rest →
    ∃ t, Host.Core.run core (chunks.length + 2) s = .next t ∧ t.pending = rest ∧
      t.responses = s.responses ++ List.replicate (chunks.length + 1) ⟨.ok, .none⟩ ++
        [⟨.ok, .lanes (hash128Fn chunks.flatten (seed.getD 0))⟩]

/-- R241: after ACC_RESET the machine is exactly as after ACC_INIT with the context's own seed. -/
def Obligations.ResetEquivalence : Prop :=
  ∀ s (c : BitVec 4) a, s.acc[c.toNat]? = some a →
    ∃ t, exec (.accReset c []) s = .next t ∧ exec (.accInit c (some a.seed) []) s = .next t

/-- R242: a query in mid-stream answers the digest so far, and the final query the digest of everything. -/
def Obligations.QueryMidStream : Prop :=
  ∀ s (c : BitVec 4) (seed : Option Word64) (d e : Bytes), c.toNat < s.nAcc → d.length + e.length < 2 ^ 64 →
    ∃ t, execAll [.accInit c seed [], .accWrite c d, .accSum128 c [], .accWrite c e, .accSum128 c []] s = .next t ∧
      t.responses = s.responses ++
        [⟨.ok, .none⟩, ⟨.ok, .none⟩, ⟨.ok, .lanes (hash128Fn d (seed.getD 0))⟩, ⟨.ok, .none⟩,
          ⟨.ok, .lanes (hash128Fn (d ++ e) (seed.getD 0))⟩]

/-- R11, R35, R243: under `wrap`, the default, every write to a context goes on and TOTAL is the sum modulo 2^64, which is
what the digest mixes; under `fault`, exactly the write that would carry TOTAL past 2^64 - 1 is a fault. -/
def Obligations.TotalOverflowModes : Prop :=
  State.reset.cfg.totalOverflow = .wrap ∧
  ∀ s (c : BitVec 4) a data, s.acc[c.toNat]? = some a →
    (s.cfg.totalOverflow = .wrap → ∃ t a', exec (.accWrite c data) s = .next t ∧ t.acc[c.toNat]? = some a' ∧
      a'.total.toNat = (a.total.toNat + data.length) % 2 ^ 64 ∧
      accDigest a' = final128 a'.lanes a'.tail (BitVec.ofNat 64 (a.total.toNat + data.length))) ∧
    (s.cfg.totalOverflow = .fault →
      (exec (.accWrite c data) s = .fault .totalOverflow ↔ 2 ^ 64 ≤ a.total.toNat + data.length))

/-! ### The whole machine -/

/-- R277, R308: a step is refused never, and stops for two reasons only: a transaction the host must not present, and the
write that has no meaning under TOTAL_OVERFLOW = fault. -/
def Obligations.OnlyTwoStops : Prop :=
  ∀ s : State, (∀ r, step s ≠ .refused r) ∧
    ∀ f, step s = .fault f → ∃ t rest, s.pending = .transaction t :: rest ∧
      ((f = .payloadTooLong ∧ s.cfg.maxPayload < t.data.length) ∨
       (f = .totalOverflow ∧ t.data.length ≤ s.cfg.maxPayload ∧ check s t = none ∧ OverflowStops s t))

/-- R301: no transaction clears a STICKY bit or DIG.VALID; hardware reset clears both; ACC_INIT and ACC_RESET affect only
their own context. -/
def Obligations.OnlyHardwareResetClears : Prop :=
  (∀ (s : State) (t : Transaction) s', step (s.present t) = .next s' →
    (∀ n, s.sticky.getLsbD n = true → s'.sticky.getLsbD n = true) ∧ (s.dig.isSome = true → s'.dig.isSome = true)) ∧
  (∀ s rest, s.pending = .hardwareReset :: rest → ∃ t, step s = .next t ∧ t.sticky = 0 ∧ t.dig = none) ∧
  (∀ s t (c : BitVec 4) seed data, exec (.accInit c seed data) s = .next t ∨ exec (.accReset c data) s = .next t →
    t.dig = s.dig ∧ ∀ j, j ≠ c.toNat → t.acc[j]? = s.acc[j]?)

/-- R70: any command but RD_STATUS, issued twice in a row, gives equal responses; a query writes no context, a view neither
DIG nor a context, and RD_STATUS nothing but STATUS. -/
def Obligations.RepeatedReads : Prop :=
  (∀ i s t t', (∀ data, i ≠ .rdStatus data) → exec i s = .next t → exec i t = .next t' →
    t'.responses.getLast? = t.responses.getLast?) ∧
  (∀ s t (c : BitVec 4) data, exec (.accSum c data) s = .next t ∨ exec (.accSum128 c data) s = .next t →
    t.acc = s.acc) ∧
  (∀ s t data, exec (.digLanes data) s = .next t ∨ exec (.digBytes data) s = .next t ∨
      exec (.digPut data) s = .next t ∨ exec (.rdStatus data) s = .next t → t.dig = s.dig ∧ t.acc = s.acc) ∧
  (∀ i s t, (∃ (c : BitVec 4) (data : Bytes), i = .accSum c data ∨ i = .accSum128 c data ∨ i = .digLanes data ∨
      i = .digBytes data ∨ i = .digPut data) → exec i s = .next t → ∃ t', exec i t = .next t') ∧
  (∀ s, ∃ t, exec (.rdStatus []) s = .next t ∧ t.last = 0 ∧
    t.responses = s.responses ++ [⟨.ok, .u32 (statusWord s.sticky s.last)⟩])

/-- R303: right after reset, with nothing initialised, every command has its full meaning, each context is a seed-0
accumulator, and the views answer E_NO_DIGEST. -/
def Obligations.NoInitialisationIsNeeded : Prop :=
  ∀ n cfg seed (c : BitVec 4) (data : Bytes), c.toNat < n → data.length < 2 ^ 64 →
    let s := State.resetWith n cfg
    (∀ i ∈ [.hash32 none data, .hash128 seed data, .accInit c seed [], .accReset c [], .accWrite c data, .accSum c data,
        .accSum128 c [], .rdStatus []], ∃ t v, exec i s = .next t ∧ Succeeds s t v) ∧
    (∀ i ∈ [.digLanes [], .digBytes [], .digPut data], ∃ t, exec i s = .next t ∧ Fails s t .noDigest) ∧
    ∃ t, execAll [.accWrite c data, .accSum128 c []] s = .next t ∧
      t.responses = [⟨.ok, .none⟩, ⟨.ok, .lanes (hash128Fn data 0)⟩]

/-- R44, R306: every HASH128, and every ACC_SUM128 that its checks let through, loads DIG with its digest, with the valid bit,
whatever DIG held; no other instruction writes DIG. -/
def Obligations.DigestWriters : Prop :=
  (∀ s seed data, ∃ t, exec (.hash128 seed data) s = .next t ∧ t.dig = some (hash128Fn data (seed.getD 0))) ∧
  (∀ s (c : BitVec 4) a, s.acc[c.toNat]? = some a →
    ∃ t, exec (.accSum128 c []) s = .next t ∧ t.dig = some (accDigest a)) ∧
  ∀ i s t, (∀ seed data, i ≠ .hash128 seed data) → (∀ c : BitVec 4, c.toNat < s.nAcc → i ≠ .accSum128 c []) →
    exec i s = .next t → t.dig = s.dig

/-- R31, R8: ACC_INIT alone writes a SEED, and no command changes the number of contexts. -/
def Obligations.SeedWriters : Prop :=
  ∀ i s t, exec i s = .next t →
    t.nAcc = s.nAcc ∧
    (t.acc.map (·.seed) = s.acc.map (·.seed) ∨
      ∃ (c : BitVec 4) (seed : Option Word64), i = .accInit c seed [] ∧
        t.acc.map (·.seed) = (s.acc.map (·.seed)).set c.toNat (seed.getD 0))

/-- R76: the beats carry DATA in order, each full but for the last, whose length is the remainder, or the width when the
remainder is 0. -/
def Obligations.BeatsCarryData : Prop :=
  ∀ (w : Nat) (data : Bytes), 0 < w →
    (beats w data).flatten = data ∧
    (∀ b j, j < w → (beat w data b)[j]? = data[b * w + j]?) ∧
    (∀ b, b + 1 < (beats w data).length → (beat w data b).length = w) ∧
    (data ≠ [] → ((beats w data).getLast?.map List.length) =
      some (if data.length % w = 0 then w else data.length % w))

/-- R66: on a byte-wide port the lanes view of a digest equals its 16-byte view, and a u32 goes out little-endian. -/
def Obligations.WireViewsAgree : Prop :=
  (∀ l : Lanes, valueWire (.lanes l) = valueWire (.bytes (ser128 l))) ∧
  (∀ v : Word32, (valueWire (.u32 v)).length = 4 ∧ leWord 32 (valueWire (.u32 v)) = v)

/-- R72, R310: with nothing to stop it, the core takes what was presented in order and returns exactly one response for each
transaction, with the status that R273's check gives in the state all earlier ones left. That the sequence is a queue in
State is the model's choice (log 4). -/
def Obligations.QueueAnsweredInOrder : Prop :=
  ∀ (ts : List Transaction) (rest : List HostEvent) (s : State),
    s.pending = ts.map .transaction ++ rest → s.cfg.totalOverflow = .wrap →
    (∀ t ∈ ts, t.data.length ≤ s.cfg.maxPayload) →
    ∃ t rs, Host.Core.run core ts.length s = .next t ∧ t.pending = rest ∧ t.responses = s.responses ++ rs ∧
      rs.length = ts.length ∧
      ∀ k (hk : k < ts.length), ∃ u u', Host.Core.run core k s = .next u ∧ step u = .next u' ∧
        u'.responses.getLast? = rs[k]? ∧ (u'.responses.getLast?.map (·.status)) = some ((check u ts[k]).getD .ok)

/-- R104: the pseudo-commands expand to HASH128, ACC.INIT with the default seed, and ACC.WRITE of the string's bytes.
The form of a string operand is the model's choice (log 12). -/
def Obligations.PseudoCommandsExpand : Prop :=
  (∀ ts, Script.command ['H', 'A', 'S', 'H', '1', '2', '8', 'X', '6', '4'] ts =
    Script.command ['H', 'A', 'S', 'H', '1', '2', '8'] ts) ∧
  (∀ c, Script.command ['A', 'C', 'C', '.', 'N', 'E', 'W'] [.word c] =
    Script.command ['A', 'C', 'C', '.', 'I', 'N', 'I', 'T'] [.word c]) ∧
  (∀ c items i, Script.command ['A', 'C', 'C', '.', 'W', 'R', 'I', 'T', 'E', '_', 'T', 'E', 'X', 'T']
      [.word c, .comma, .text items] = .ok i →
    ∃ n, Script.contextName c = .ok n ∧ i = .accWrite n (Script.stringBytes items))

/-- R38: the one-shot hashers keep no state: what HASH32 and HASH128 answer does not depend on the state, and HASH32 leaves
no trace but STATUS. -/
def Obligations.OneShotKeepsNoState : Prop :=
  ∀ s s' seed data, ∃ t t' u u' v w,
    exec (.hash32 seed data) s = .next t ∧ exec (.hash32 seed data) s' = .next t' ∧
    t.responses = s.responses ++ [v] ∧ t'.responses = s'.responses ++ [v] ∧ t.acc = s.acc ∧ t.dig = s.dig ∧
    exec (.hash128 seed data) s = .next u ∧ exec (.hash128 seed data) s' = .next u' ∧
    u.responses = s.responses ++ [w] ∧ u'.responses = s'.responses ++ [w] ∧ u.acc = s.acc ∧ u.dig = u'.dig

/-- Over whole runs, derived from R37: on any sequence of transactions and reset signals every context is as R37 says, of its
seed and the stream written to it since its last initialisation or reset. That the sequence is a queue in State, and that
transactions queued before a reset signal are taken after it and count in the stream, is the model's choice (log 4). -/
def Obligations.RunsKeepFullHistory : Prop :=
  ∀ n cfg (events : List HostEvent) (c : BitVec 4) t a,
    Host.Core.run core events.length { State.resetWith n cfg with pending := events } = .next t →
      t.acc[c.toNat]? = some a → (events.foldl (eventHistory c) (0, [])).2.length < 2 ^ 64 →
        a.Absorbed (events.foldl (eventHistory c) (0, [])).1 (events.foldl (eventHistory c) (0, [])).2
end

