-- ==== Sys2Proof/Laws/Bytes.lean ====
section
/-! SUPPORT. Lengths and shapes of byte sequences, and little-endian assembly one byte at a time. -/

namespace Sys2Proof.Machine

@[simp] theorem leWord_nil (w : Nat) : leWord w [] = 0 := rfl

theorem leWord_cons (w : Nat) (b : Byte) (rest : Bytes) :
    leWord w (b :: rest) = b.setWidth w ||| (leWord w rest <<< 8) := rfl

@[simp] theorem length_leBytes (n : Nat) {w : Nat} (v : BitVec w) : (leBytes n v).length = n := by simp [leBytes]

theorem leBytes_getElem? (n : Nat) {w : Nat} (v : BitVec w) {i : Nat} (h : i < n) :
    (leBytes n v)[i]? = some (v.extractLsb' (8 * i) 8) := by simp [leBytes, h]

@[simp] theorem length_ser128 (l : Lanes) : (ser128 l).length = 16 := by simp [ser128]

@[simp] theorem length_slice (s : Bytes) (a b : Nat) : (slice s a b).length = min b s.length - a := by simp [slice]

/-- `s[a..len(s))` is what is left after `a` bytes. -/
@[simp] theorem slice_to_end (s : Bytes) (a : Nat) : slice s a s.length = s.drop a := by simp [slice]

theorem slice_eq_take_drop (s : Bytes) (a n : Nat) : slice s a (a + n) = (s.drop a).take n := by
  simp [slice, List.drop_take]

/-- A read that ends inside a sequence does not see what is appended to it. -/
theorem memRead_append (w : Nat) (s t : Bytes) (off : Nat) (h : off + w / 8 ≤ s.length) :
    memRead w (s ++ t) off = memRead w s off := by
  simp [memRead, slice, List.take_append_of_le_length h]

/-- A read past a sequence reads what is appended to it. -/
theorem memRead_append_right (w : Nat) (s t : Bytes) (off : Nat) :
    memRead w (s ++ t) (s.length + off) = memRead w t off := by
  simp [memRead, slice_eq_take_drop, ← List.drop_drop]

end Sys2Proof.Machine
end

