-- ==== Sys2Proof/Laws/Datapath.lean ====
section
/-! SUPPORT. The block loops of P32 and P128, one block at a time and over concatenated sequences. -/

namespace Sys2Proof.Machine

@[simp] theorem blocks32_zero (h : Word32) (d : Bytes) : blocks32 h d 0 = h := rfl

theorem blocks32_succ (h : Word32) (d : Bytes) (nb : Nat) :
    blocks32 h d (nb + 1) = block32 (blocks32 h d nb) (memRead 32 d (4 * nb)) := by
  simp [blocks32, List.range_succ]

@[simp] theorem blocks128_zero (l : Lanes) (d : Bytes) : blocks128 l d 0 = l := rfl

theorem blocks128_succ (l : Lanes) (d : Bytes) (nb : Nat) :
    blocks128 l d (nb + 1) =
      block128 (blocks128 l d nb) (memRead 64 d (16 * nb)) (memRead 64 d (16 * nb + 8)) := by
  simp [blocks128, List.range_succ]

/-- Blocks that lie inside a sequence do not see what is appended to it. -/
theorem blocks128_append_right (l : Lanes) (d e : Bytes) (nb : Nat) (h : 16 * nb ≤ d.length) :
    blocks128 l (d ++ e) nb = blocks128 l d nb := by
  induction nb with
  | zero => simp
  | succ n ih =>
    rw [blocks128_succ, blocks128_succ, ih (by omega), memRead_append _ _ _ _ (by omega),
      memRead_append _ _ _ _ (by omega)]

theorem blocks32_append_right (h : Word32) (d e : Bytes) (nb : Nat) (hd : 4 * nb ≤ d.length) :
    blocks32 h (d ++ e) nb = blocks32 h d nb := by
  induction nb with
  | zero => simp
  | succ n ih => rw [blocks32_succ, blocks32_succ, ih (by omega), memRead_append _ _ _ _ (by omega)]

/-- The blocks of a whole number of blocks, then those of what follows. -/
theorem blocks128_append (l : Lanes) (d e : Bytes) (m n : Nat) (h : d.length = 16 * m) :
    blocks128 l (d ++ e) (m + n) = blocks128 (blocks128 l d m) e n := by
  induction n with
  | zero => simp [blocks128_append_right _ _ _ _ (Nat.le_of_eq h.symm)]
  | succ n ih =>
    rw [← Nat.add_assoc, blocks128_succ, ih, blocks128_succ]
    congr 1
    · rw [show 16 * (m + n) = d.length + 16 * n by omega, memRead_append_right]
    · rw [show 16 * (m + n) + 8 = d.length + (16 * n + 8) by omega, memRead_append_right]

theorem blocks32_append (h : Word32) (d e : Bytes) (m n : Nat) (hd : d.length = 4 * m) :
    blocks32 h (d ++ e) (m + n) = blocks32 (blocks32 h d m) e n := by
  induction n with
  | zero => simp [blocks32_append_right _ _ _ _ (Nat.le_of_eq hd.symm)]
  | succ n ih =>
    rw [← Nat.add_assoc, blocks32_succ, ih, blocks32_succ]
    congr 1
    rw [show 4 * (m + n) = d.length + 4 * n by omega, memRead_append_right]

@[simp] theorem absorb_seed (a : AccCtx) (d : Bytes) : (absorb a d).seed = a.seed := rfl

theorem absorb_lanes (a : AccCtx) (d : Bytes) :
    (absorb a d).lanes = blocks128 a.lanes (a.tail ++ d) ((a.tail ++ d).length / 16) := rfl

theorem absorb_tail (a : AccCtx) (d : Bytes) :
    (absorb a d).tail = (a.tail ++ d).drop (16 * ((a.tail ++ d).length / 16)) := by
  simp only [absorb, slice_to_end]

theorem absorb_total (a : AccCtx) (d : Bytes) : (absorb a d).total = a.total + BitVec.ofNat 64 d.length := rfl

theorem absorb_tail_length (a : AccCtx) (d : Bytes) :
    (absorb a d).tail.length = (a.tail.length + d.length) % 16 := by
  simp [absorb_tail]; omega

theorem absorb_total_toNat (a : AccCtx) (d : Bytes) :
    (absorb a d).total.toNat = (a.total.toNat + d.length) % 2 ^ 64 := by
  simp [absorb_total, BitVec.toNat_add]

end Sys2Proof.Machine
end

