-- ==== Sys2Proof/Laws/Decode.lean ====
section
/-! SUPPORT. The opcode table: it has no overlaps, its codes are its match words' low bytes, and what the decoder's lookup
finds. -/

namespace Sys2Proof

theorem Opcode.mem_all (op : Opcode) : op ∈ Opcode.all := by cases op <;> decide

theorem Opcode.code_injective : ∀ {a b : Opcode}, a.code = b.code → a = b := by
  intro a b; cases a <;> cases b <;> decide

theorem Opcode.ofCode_code (op : Opcode) : Opcode.ofCode op.code = some op := by cases op <;> rfl

theorem Opcode.ofCode_eq_some {b : BitVec 8} {op : Opcode} : Opcode.ofCode b = some op ↔ op.code = b := by
  constructor
  · intro h
    have := List.find?_some h
    simpa using this
  · rintro rfl; exact Opcode.ofCode_code op

theorem Opcode.ofCode_eq_none {b : BitVec 8} : Opcode.ofCode b = none ↔ ∀ op : Opcode, op.code ≠ b := by
  simp [Opcode.ofCode, Opcode.mem_all]

/-- No two rows of R99 select one word: they differ in a bit that both masks hold. -/
theorem Opcode.rows_disjoint :
    Opcode.all.Pairwise fun a b => a.cmdMatch &&& b.cmdMask ≠ b.cmdMatch &&& a.cmdMask := by decide

theorem Opcode.cmdOpc_cmdMatch (op : Opcode) : cmdOpc op.cmdMatch = op.code := by cases op <;> decide

@[simp] theorem encode_data (i : Instr) : (encode i).data = i.data := by cases i <;> rfl

end Sys2Proof
end

