-- ==== Sys2Proof/Laws/State.lean ====
section
/-! SUPPORT. One lemma per field per update of State, so that no proof unfolds a record update. -/

namespace Sys2Proof.Machine

section respond

variable (s : State) (st : Status) (v : Value)

@[simp] theorem State.respond_acc : (s.respond st v).acc = s.acc := rfl
@[simp] theorem State.respond_dig : (s.respond st v).dig = s.dig := rfl
@[simp] theorem State.respond_last : (s.respond st v).last = st.code := rfl
@[simp] theorem State.respond_sticky : (s.respond st v).sticky = stickyAfter s.sticky st := rfl
@[simp] theorem State.respond_cfg : (s.respond st v).cfg = s.cfg := rfl
@[simp] theorem State.respond_pending : (s.respond st v).pending = s.pending := rfl
@[simp] theorem State.respond_responses : (s.respond st v).responses = s.responses ++ [⟨st, v⟩] := rfl
@[simp] theorem State.respond_nAcc : (s.respond st v).nAcc = s.nAcc := rfl

theorem State.fail_eq : s.fail st = s.respond st .none := rfl

end respond

section setContext

variable (s : State) (c : BitVec 4) (a : AccCtx)

@[simp] theorem State.setContext_acc : (s.setContext c a).acc = s.acc.set c.toNat a := rfl
@[simp] theorem State.setContext_dig : (s.setContext c a).dig = s.dig := rfl
@[simp] theorem State.setContext_last : (s.setContext c a).last = s.last := rfl
@[simp] theorem State.setContext_sticky : (s.setContext c a).sticky = s.sticky := rfl
@[simp] theorem State.setContext_cfg : (s.setContext c a).cfg = s.cfg := rfl
@[simp] theorem State.setContext_pending : (s.setContext c a).pending = s.pending := rfl
@[simp] theorem State.setContext_responses : (s.setContext c a).responses = s.responses := rfl

@[simp] theorem State.setContext_nAcc : (s.setContext c a).nAcc = s.nAcc := by simp [State.nAcc]

end setContext

section setDigest

variable (s : State) (l : Lanes)

@[simp] theorem State.setDigest_acc : (s.setDigest l).acc = s.acc := rfl
@[simp] theorem State.setDigest_dig : (s.setDigest l).dig = some l := rfl
@[simp] theorem State.setDigest_last : (s.setDigest l).last = s.last := rfl
@[simp] theorem State.setDigest_sticky : (s.setDigest l).sticky = s.sticky := rfl
@[simp] theorem State.setDigest_cfg : (s.setDigest l).cfg = s.cfg := rfl
@[simp] theorem State.setDigest_pending : (s.setDigest l).pending = s.pending := rfl
@[simp] theorem State.setDigest_responses : (s.setDigest l).responses = s.responses := rfl
@[simp] theorem State.setDigest_nAcc : (s.setDigest l).nAcc = s.nAcc := rfl

end setDigest

section hardwareReset

variable (s : State)

@[simp] theorem State.hardwareReset_acc : s.hardwareReset.acc = s.acc.map fun _ => AccCtx.fresh 0 := rfl
@[simp] theorem State.hardwareReset_dig : s.hardwareReset.dig = none := rfl
@[simp] theorem State.hardwareReset_last : s.hardwareReset.last = 0 := rfl
@[simp] theorem State.hardwareReset_sticky : s.hardwareReset.sticky = 0 := rfl
@[simp] theorem State.hardwareReset_cfg : s.hardwareReset.cfg = s.cfg := rfl
@[simp] theorem State.hardwareReset_pending : s.hardwareReset.pending = s.pending := rfl
@[simp] theorem State.hardwareReset_responses : s.hardwareReset.responses = s.responses := rfl

end hardwareReset

section present

variable (s : State) (t : Transaction)

@[simp] theorem State.present_acc : (s.present t).acc = s.acc := rfl
@[simp] theorem State.present_dig : (s.present t).dig = s.dig := rfl
@[simp] theorem State.present_last : (s.present t).last = s.last := rfl
@[simp] theorem State.present_sticky : (s.present t).sticky = s.sticky := rfl
@[simp] theorem State.present_cfg : (s.present t).cfg = s.cfg := rfl
@[simp] theorem State.present_pending : (s.present t).pending = .transaction t :: s.pending := rfl
@[simp] theorem State.present_responses : (s.present t).responses = s.responses := rfl

end present

section fresh

variable (seed : Word64)

@[simp] theorem AccCtx.fresh_seed : (AccCtx.fresh seed).seed = seed := rfl
@[simp] theorem AccCtx.fresh_lanes : (AccCtx.fresh seed).lanes = ⟨seed, seed⟩ := rfl
@[simp] theorem AccCtx.fresh_tail : (AccCtx.fresh seed).tail = [] := rfl
@[simp] theorem AccCtx.fresh_total : (AccCtx.fresh seed).total = 0 := rfl

end fresh

section restart

variable (a : AccCtx)

@[simp] theorem AccCtx.restart_seed : a.restart.seed = a.seed := rfl
@[simp] theorem AccCtx.restart_lanes : a.restart.lanes = ⟨a.seed, a.seed⟩ := rfl
@[simp] theorem AccCtx.restart_tail : a.restart.tail = [] := rfl
@[simp] theorem AccCtx.restart_total : a.restart.total = 0 := rfl

theorem AccCtx.restart_eq_fresh : a.restart = AccCtx.fresh a.seed := rfl

end restart

end Sys2Proof.Machine
end

