-- ==== Sys2Proof/Laws/Ops.lean ====
section
/-! SUPPORT. What each shared operation can do, said once: the checks of Operands.lean, the STATUS update, and, from them, what
any meaning can do. -/

namespace Sys2Proof.Machine

@[simp] theorem stickyAfter_ok (sticky : BitVec 7) : stickyAfter sticky .ok = sticky := rfl

/-- The STATUS update sets the bit of an error code and clears none (R43). -/
theorem stickyAfter_getLsbD (sticky : BitVec 7) (st : Status) (n : Nat) :
    (stickyAfter sticky st).getLsbD n = (sticky.getLsbD n || decide (st.code.toNat = n + 1)) := by
  by_cases hn : n < 7
  · revert sticky
    interval_cases n <;> cases st <;> decide
  · have : st.code.toNat ≠ n + 1 := by cases st <;> simp [Status.code] <;> omega
    simp [this, BitVec.getLsbD_of_ge _ _ (Nat.not_lt.mp hn)]

theorem raise_eq (s : State) (code : Status) : raise s code = .next (s.respond code .none) := rfl

theorem complete_eq (s : State) (v : Value) : complete s v = .next (s.respond .ok v) := rfl

theorem withContext_none {s : State} {c : BitVec 4} (h : s.acc[c.toNat]? = none) (k : AccCtx → Result) :
    withContext s c k = raise s .badCtx := by simp [withContext, h]

theorem withContext_some {s : State} {c : BitVec 4} {a : AccCtx} (h : s.acc[c.toNat]? = some a) (k : AccCtx → Result) :
    withContext s c k = k a := by simp [withContext, h]

theorem withNoData_nil (s : State) (k : Result) : withNoData s [] k = k := rfl

theorem withNoData_of_ne {s : State} {data : Bytes} (h : data ≠ []) (k : Result) :
    withNoData s data k = raise s .badOperand := by simp [withNoData, h]

theorem withDigest_none {s : State} (h : s.dig = none) (k : Lanes → Result) : withDigest s k = raise s .noDigest := by
  simp [withDigest, h]

theorem withDigest_some {s : State} {l : Lanes} (h : s.dig = some l) (k : Lanes → Result) : withDigest s k = k l := by
  simp [withDigest, h]

theorem withBuffer_short {s : State} {data : Bytes} (h : data.length < 16) (k : Result) :
    withBuffer s data k = raise s .shortBuf := by simp [withBuffer, h]

theorem withBuffer_long {s : State} {data : Bytes} (h : 16 ≤ data.length) (k : Result) :
    withBuffer s data k = k := by simp [withBuffer, Nat.not_lt.mpr h]

/-- What a meaning can do: it answers one response, in `s` itself for an error, and for a success in `s` with its DIG, or one
context, written; or it is the write that TOTAL_OVERFLOW = fault stops. -/
inductive Effect (s : State) : Result → Prop
  | error (code : Status) (h : code ≠ .ok) : Effect s (raise s code)
  | answer (v : Value) : Effect s (complete s v)
  | digest (l : Lanes) (v : Value) : Effect s (complete (s.setDigest l) v)
  | context (c : BitVec 4) (a : AccCtx) : Effect s (complete (s.setContext c a) .none)
  | overflow (h : s.cfg.totalOverflow = .fault) : Effect s (.fault .totalOverflow)

theorem effect_withContext {s : State} {c : BitVec 4} {k : AccCtx → Result} (h : ∀ a, Effect s (k a)) :
    Effect s (withContext s c k) := by
  unfold withContext; split
  · exact .error _ nofun
  · exact h _

theorem effect_withSeed32 {s : State} {seed : Option Word64} {k : Word32 → Result} (h : ∀ v, Effect s (k v)) :
    Effect s (withSeed32 s seed k) := by
  unfold withSeed32; split
  · exact h _
  · exact .error _ nofun

theorem effect_withNoData {s : State} {data : Bytes} {k : Result} (h : Effect s k) :
    Effect s (withNoData s data k) := by
  unfold withNoData; split
  · exact h
  · exact .error _ nofun

theorem effect_withDigest {s : State} {k : Lanes → Result} (h : ∀ l, Effect s (k l)) : Effect s (withDigest s k) := by
  unfold withDigest; split
  · exact .error _ nofun
  · exact h _

theorem effect_withBuffer {s : State} {data : Bytes} {k : Result} (h : Effect s k) :
    Effect s (withBuffer s data k) := by
  unfold withBuffer; split
  · exact .error _ nofun
  · exact h

/-- Every instruction does one of the things Effect lists. -/
theorem exec_effect (i : Instr) (s : State) : Effect s (exec i s) := by
  cases i <;> simp only [exec]
  case hash32 => exact effect_withSeed32 (k := fun seed => complete s (.u32 (hash32Fn _ seed))) fun _ => .answer _
  case hash128 seed data => exact .digest (hash128Fn data (seed64 seed)) _
  case digLanes => exact effect_withNoData (effect_withDigest fun _ => .answer _)
  case digBytes => exact effect_withNoData (effect_withDigest fun _ => .answer _)
  case digPut => exact effect_withDigest fun _ => effect_withBuffer (.answer _)
  case accInit => exact effect_withContext fun _ => effect_withNoData (.context _ _)
  case accReset => exact effect_withContext fun _ => effect_withNoData (.context _ _)
  case accWrite ctx data =>
    refine effect_withContext fun a => ?_
    split
    · next h => exact .overflow h.1
    · exact .context _ _
  case accSum => exact effect_withContext fun _ => .answer _
  case accSum128 => exact effect_withContext fun _ => effect_withNoData (.digest _ _)
  case rdStatus => exact effect_withNoData (.answer _)

end Sys2Proof.Machine
end

