-- ==== Sys2Proof/Laws/PerInstr.lean ====
section
/-! SUPPORT. Statements made per instruction. Family EncodedWord: the command word that the encoder writes selects the
instruction's own row of spec/30_encoding.md R99. -/

namespace Sys2Proof

/-- The row of R92 an instruction belongs to. -/
def Instr.opcode : Instr → Opcode
  | .hash32 _ _ => .hash32
  | .hash128 _ _ => .hash128
  | .digLanes _ => .digLanes
  | .digBytes _ => .digBytes
  | .digPut _ => .digPut
  | .accInit _ _ _ => .accInit
  | .accReset _ _ => .accReset
  | .accWrite _ _ => .accWrite
  | .accSum _ _ => .accSum
  | .accSum128 _ _ => .accSum128
  | .rdStatus _ => .rdStatus

/-- A word built with any context and seed bit selects its row where the row admits both. -/
theorem commandWord_selects_any (ctx : BitVec 4) (sel : Bool) : Opcode.accInit.selectedBy (commandWord .accInit ctx sel) := by
  revert ctx sel; decide

/-- The rows that admit any seed bit and no context. -/
theorem commandWord_selects_seeded (op : Opcode) (h : op = .hash32 ∨ op = .hash128) (sel : Bool) :
    op.selectedBy (commandWord op 0 sel) := by
  rcases h with rfl | rfl <;> revert sel <;> decide

/-- The rows that admit any context and no seed. -/
theorem commandWord_selects_context (op : Opcode)
    (h : op = .accReset ∨ op = .accWrite ∨ op = .accSum ∨ op = .accSum128) (ctx : BitVec 4) :
    op.selectedBy (commandWord op ctx false) := by
  rcases h with rfl | rfl | rfl | rfl <;> revert ctx <;> decide

namespace Laws.EncodedWord

/-- R99: `(W & mask) = match` for the word W that presents the instruction. -/
def Statement (i : Instr) : Prop := i.opcode.selectedBy (encode i).cmd

theorem hash32 (seed : Option Word64) (data : Bytes) : Statement (.hash32 seed data) :=
  commandWord_selects_seeded .hash32 (.inl rfl) seed.isSome

theorem hash128 (seed : Option Word64) (data : Bytes) : Statement (.hash128 seed data) :=
  commandWord_selects_seeded .hash128 (.inr rfl) seed.isSome

theorem digLanes (data : Bytes) : Statement (.digLanes data) := by
  show Opcode.digLanes.selectedBy (commandWord .digLanes 0 false)
  decide

theorem digBytes (data : Bytes) : Statement (.digBytes data) := by
  show Opcode.digBytes.selectedBy (commandWord .digBytes 0 false)
  decide

theorem digPut (data : Bytes) : Statement (.digPut data) := by
  show Opcode.digPut.selectedBy (commandWord .digPut 0 false)
  decide

theorem accInit (ctx : BitVec 4) (seed : Option Word64) (data : Bytes) : Statement (.accInit ctx seed data) :=
  commandWord_selects_any ctx seed.isSome

theorem accReset (ctx : BitVec 4) (data : Bytes) : Statement (.accReset ctx data) :=
  commandWord_selects_context .accReset (.inl rfl) ctx

theorem accWrite (ctx : BitVec 4) (data : Bytes) : Statement (.accWrite ctx data) :=
  commandWord_selects_context .accWrite (.inr (.inl rfl)) ctx

theorem accSum (ctx : BitVec 4) (data : Bytes) : Statement (.accSum ctx data) :=
  commandWord_selects_context .accSum (.inr (.inr (.inl rfl))) ctx

theorem accSum128 (ctx : BitVec 4) (data : Bytes) : Statement (.accSum128 ctx data) :=
  commandWord_selects_context .accSum128 (.inr (.inr (.inr rfl))) ctx

theorem rdStatus (data : Bytes) : Statement (.rdStatus data) := by
  show Opcode.rdStatus.selectedBy (commandWord .rdStatus 0 false)
  decide

end Laws.EncodedWord

end Sys2Proof
end

