-- ==== Sys2Proof/Laws/Step.lean ====
section
/-! SUPPORT. What a step does with the oldest event. -/

namespace Sys2Proof.Machine

theorem step_idle {s : State} (h : s.pending = []) : step s = .next s := by simp [step, take, h]

theorem step_reset {s : State} {rest : List HostEvent} (h : s.pending = .hardwareReset :: rest) :
    step s = .next { s with pending := rest }.hardwareReset := by simp [step, take, h]

/-- A presented transaction is taken, and the queue is as it was before. -/
theorem step_present (s : State) (t : Transaction) :
    step (s.present t) =
      match takeTransaction s t with
      | .outcome o => o
      | .instr i s' => exec i s' := rfl

theorem step_present_ok {s : State} {t : Transaction} {i : Instr} (h : t.data.length ≤ s.cfg.maxPayload)
    (hd : decode t = .ok i) : step (s.present t) = exec i s := by
  simp [step_present, takeTransaction, h, hd]

theorem step_present_error {s : State} {t : Transaction} {e : Status} (h : t.data.length ≤ s.cfg.maxPayload)
    (hd : decode t = .error e) : step (s.present t) = raise s e := by
  simp [step_present, takeTransaction, h, hd]

theorem step_present_long {s : State} {t : Transaction} (h : s.cfg.maxPayload < t.data.length) :
    step (s.present t) = .fault .payloadTooLong := by
  simp [step_present, takeTransaction, Nat.not_le.mpr h]

/-- A state with a transaction at the head of its queue is one in which it has just been presented. -/
theorem State.eq_present {s : State} {t : Transaction} {rest : List HostEvent} (h : s.pending = .transaction t :: rest) :
    s = ({ s with pending := rest } : State).present t := by
  cases s; simp_all [State.present]

end Sys2Proof.Machine
end

