-- ==== Sys2Proof/Laws/Run.lean ====
section
/-! SUPPORT. Runs of the machine, one step at a time. -/

namespace Sys2Proof.Machine

@[simp] theorem run_zero (s : State) : Host.Core.run core 0 s = .next s := rfl

theorem run_succ_next {k : Nat} {s t : State} (h : step s = .next t) :
    Host.Core.run core (k + 1) s = Host.Core.run core k t := by
  have : core.step s = .next t := h
  simp [Host.Core.run, this]

/-- A run that goes on for one more step took a step that went on. -/
theorem run_succ_inv {k : Nat} {s t : State} (h : Host.Core.run core (k + 1) s = .next t) :
    ∃ u, step s = .next u ∧ Host.Core.run core k u = .next t := by
  cases hs : step s with
  | next u => exact ⟨u, rfl, by rwa [run_succ_next hs] at h⟩
  | fault r =>
    have : core.step s = .fault r := hs
    simp [Host.Core.run, this] at h
  | refused r =>
    have : core.step s = .refused r := hs
    simp [Host.Core.run, this] at h

end Sys2Proof.Machine
end

