-- ==== Sys2Proof/Tests/Slice0.lean ====
section
/-! SUPPORT. Tests: ill-formed instructions, words written out bit by bit, one-step checks whose expected results are the
vectors of spec/95_test_vectors.md, and for every obligation with hypotheses a witness that meets them. -/

namespace Sys2Proof.Tests

open Sys2Proof.Machine Sys2Proof.Claims

/-! ### WellFormed -/

/-- One byte more than any core can be presented (R9). -/
theorem test_ill_formed_data : ¬ (Instr.accWrite 0 (List.replicate (2 ^ 64) 0)).WellFormed := by
  intro hw
  have hl : (List.replicate (2 ^ 64) (0 : Byte)).length ≤ 2 ^ 64 - 1 := hw
  rw [List.length_replicate] at hl
  omega

/-- The longest DATA any core can be presented (R9). -/
theorem test_well_formed_longest : (Instr.hash128 none (List.replicate (2 ^ 64 - 1) 0)).WellFormed :=
  Nat.le_of_eq List.length_replicate

/-! ### Decoding: each word is RSVD, SEEDSEL, CTX, OPC (R91), from R92, R99 and R105 -/

theorem test_word_hash32 :
    decode ⟨0b0000000000000000000_1_0000_00000001, 0x9747b28c, [0x48]⟩ = .ok (.hash32 (some 0x9747b28c) [0x48]) := by
  decide

theorem test_word_hash128 : decode ⟨0b0000000000000000000_0_0000_00000010, 7, []⟩ = .ok (.hash128 none []) := by decide

theorem test_word_digLanes : decode ⟨0b0000000000000000000_0_0000_00001000, 0, []⟩ = .ok (.digLanes []) := by decide

theorem test_word_digBytes : decode ⟨0b0000000000000000000_0_0000_00001001, 0, []⟩ = .ok (.digBytes []) := by decide

theorem test_word_digPut : decode ⟨0b0000000000000000000_0_0000_00001010, 0, [1]⟩ = .ok (.digPut [1]) := by decide

theorem test_word_accInit :
    decode ⟨0b0000000000000000000_1_0011_00010000, 1, []⟩ = .ok (.accInit 3 (some 1) []) := by decide

theorem test_word_accReset : decode ⟨0b0000000000000000000_0_0001_00010001, 0, []⟩ = .ok (.accReset 1 []) := by decide

theorem test_word_accWrite :
    decode ⟨0b0000000000000000000_0_1111_00010010, 0, [0x68]⟩ = .ok (.accWrite 15 [0x68]) := by decide

theorem test_word_accSum : decode ⟨0b0000000000000000000_0_0010_00010011, 0, []⟩ = .ok (.accSum 2 []) := by decide

theorem test_word_accSum128 : decode ⟨0b0000000000000000000_0_0000_00010100, 0, []⟩ = .ok (.accSum128 0 []) := by decide

theorem test_word_rdStatus : decode ⟨0b0000000000000000000_0_0000_00110000, 0, []⟩ = .ok (.rdStatus []) := by decide

/-- The table's numbering: CMD in bits 31:0, OPND above it. -/
theorem test_table_word :
    decodeTableWord 32 0x00000113 = some (.accSum 1 []) ∧ decodeTableWord 96 0x2A_00001110 = some (.accInit 1 (some 0x2A) []) ∧
      decodeTableWord 32 0x00001012 = none := by decide

/-! ### One step: expected results from spec/95_test_vectors.md -/

/-- The last response and STATUS after one transaction. -/
def answer (s : State) (cmd : Word32) (opnd : Word64) (data : Bytes) : Option (Response × Word32) :=
  match step (s.present ⟨cmd, opnd, data⟩) with
  | .next t => t.responses.getLast?.map fun r => (r, t.statusReg)
  | .fault _ | .refused _ => none

/-- Context 0 after one transaction. -/
def context0 (s : State) (cmd : Word32) (data : Bytes) : Option AccCtx :=
  match step (s.present ⟨cmd, 0, data⟩) with
  | .next t => t.acc[0]?
  | .fault _ | .refused _ => none

/-- "hello". -/
def hello : Bytes := [0x68, 0x65, 0x6c, 0x6c, 0x6f]

/-- The bytes 00 01 02 ... of spec/95. -/
def seq (n : Nat) : Bytes := (List.range n).map (BitVec.ofNat 8)

/-- The digest of "hello" (S6). -/
def helloLanes : Lanes := ⟨0xcbd8a7b341bd9b02, 0x5b1e906a48ae1d19⟩

/-- Its serialization (S2). -/
def helloBytes : Bytes :=
  [0x02, 0x9b, 0xbd, 0x41, 0xb3, 0xa7, 0xd8, 0xcb, 0x19, 0x1d, 0xae, 0x48, 0x6a, 0x90, 0x1e, 0x5b]

/-- Just after reset, with the digest of "hello" in DIG. -/
def held : State := { State.reset with dig := some helloLanes }

/-- Just after reset, with one context as given. -/
def withAcc (a : AccCtx) : State := { State.reset with acc := [a] }

/-- S1. -/
theorem test_hash32_hello : answer State.reset 0x00000001 0 hello = some (⟨.ok, .u32 0x248bfa47⟩, 0) := by decide

/-- spec/95 section 2.7. -/
theorem test_hash32_seeded :
    answer State.reset 0x00001001 0x9747b28c [0x48, 0x65, 0x6c, 0x6c, 0x6f, 0x2c, 0x20, 0x77, 0x6f, 0x72, 0x6c, 0x64, 0x21] =
      some (⟨.ok, .u32 0x24884cba⟩, 0) := by decide

/-- spec/95 section 2.3, a seed that needs all 64 bits. -/
theorem test_hash128_seeded :
    answer State.reset 0x00001002 0x100000000 hello = some (⟨.ok, .lanes ⟨0xcb6dbc235224436d, 0x5a48b94a697b6def⟩⟩, 0) := by
  decide

/-- spec/95 section 2.3: two blocks and a tail. -/
theorem test_hash128_seq33 :
    answer State.reset 0x00000002 0 (seq 33) = some (⟨.ok, .lanes ⟨0x7d41281bfaba4612, 0x55ac8073a7d6a30b⟩⟩, 0) := by decide

theorem test_digLanes : answer held 0x00000008 0 [] = some (⟨.ok, .lanes helloLanes⟩, 0) := by decide

theorem test_digLanes_none : answer State.reset 0x00000008 0 [] = some (⟨.noDigest, .none⟩, 0x00002006) := by decide

/-- S2. -/
theorem test_digBytes : answer held 0x00000009 0 [] = some (⟨.ok, .bytes helloBytes⟩, 0) := by decide

/-- spec/95 section 2.6: E_BAD_OPERAND comes before E_NO_DIGEST. -/
theorem test_digBytes_order : answer State.reset 0x00000009 0 [0] = some (⟨.badOperand, .none⟩, 0x00001005) := by decide

/-- spec/95 section 2.4. -/
theorem test_digPut :
    answer held 0x0000000A 0 (List.replicate 18 0xaa) = some (⟨.ok, .bytes (helloBytes ++ [0xaa, 0xaa])⟩, 0) := by decide

/-- spec/95 section 2.4: one byte short. -/
theorem test_digPut_short : answer held 0x0000000A 0 (List.replicate 15 0) = some (⟨.shortBuf, .none⟩, 0x00004007) := by
  decide

/-- R230's example. -/
theorem test_accInit :
    (match step (State.reset.present ⟨0x00001010, 1, []⟩) with
      | .next t => t.acc
      | .fault _ | .refused _ => []) = [⟨1, 1, 1, [], 0⟩] := by decide

/-- spec/95 section 2.6. -/
theorem test_accInit_badCtx : answer State.reset 0x00000F10 0 [] = some (⟨.badCtx, .none⟩, 0x00000403) := by decide

/-- R231's example: "abc" absorbed, seed 1. -/
theorem test_accReset : context0 (withAcc ⟨1, 1, 1, [0x61, 0x62, 0x63], 3⟩) 0x00000011 [] = some ⟨1, 1, 1, [], 0⟩ := by
  decide

/-- spec/95 section 2.6. -/
theorem test_accReset_operand : answer State.reset 0x00000011 0 [0] = some (⟨.badOperand, .none⟩, 0x00001005) := by decide

/-- spec/95 section 2.5: the sixteenth byte fires one block. -/
theorem test_accWrite_completes_block :
    context0 (withAcc ⟨0, 0, 0, seq 15, 15⟩) 0x00000012 [0x0f] =
      some ⟨0, 0xdcac505ea5c458df, 0x72927c4be244042d, [], 16⟩ := by decide

/-- spec/95 section 2.5: the counter wraps. -/
theorem test_accWrite_wraps :
    context0 (withAcc ⟨0, 0, 0, [], 0xffffffffffffffff⟩) 0x00000012 [0x61] = some ⟨0, 0, 0, [0x61], 0⟩ := by decide

/-- spec/95 section 2.5, the append form. -/
theorem test_accSum :
    answer (withAcc ⟨0, 0, 0, hello, 5⟩) 0x00000013 0 [0xff] = some (⟨.ok, .bytes (0xff :: helloBytes)⟩, 0) := by decide

/-- P2, step 5: a block and a tail of nine bytes. -/
theorem test_accSum_p2 :
    answer (withAcc ⟨0, 0x065f54070009580c, 0x1185bfe0bc383732,
        [0x66, 0x6f, 0x78, 0x20, 0x6a, 0x75, 0x6d, 0x70, 0x73], 25⟩) 0x00000013 0 [] =
      some (⟨.ok, .bytes [0xd2, 0x0b, 0x74, 0xa7, 0x4c, 0x44, 0x8f, 0xe4, 0x36, 0xec, 0x64, 0x24, 0x38, 0x1b, 0xc8, 0x6a]⟩,
        0) := by decide

/-- spec/95 section 2.5: a wrapped counter is mixed as 0. -/
theorem test_accSum128_wrapped :
    answer (withAcc ⟨0, 0, 0, [0x61], 0⟩) 0x00000014 0 [] = some (⟨.ok, .lanes ⟨0x47eae1073748cf70, 0x6be0518ad2ed3728⟩⟩, 0) := by
  decide

/-- P3, step 9: a context at its seed is finalized, not read out. -/
theorem test_accSum128_seed :
    answer (withAcc ⟨0x2a, 0x2a, 0x2a, [], 0⟩) 0x00000014 0 [] =
      some (⟨.ok, .lanes ⟨0xf02aa77dfa1b8523, 0xd1016610da11cbb9⟩⟩, 0) := by decide

/-- P4, step 9: STATUS before its own update, then LAST = 0x00. -/
theorem test_rdStatus :
    answer { State.reset with last := 0x07, sticky := 0x60 } 0x00000030 0 [] = some (⟨.ok, .u32 0x00006007⟩, 0x00006000) := by
  decide

/-- spec/95 section 2.6. -/
theorem test_rdStatus_operand : answer State.reset 0x00000030 0 [0] = some (⟨.badOperand, .none⟩, 0x00001005) := by decide

/-- spec/95 section 2.6: words that are no instruction, and the order of the first four checks. -/
theorem test_error_rows :
    answer State.reset 0x00000000 0 [] = some (⟨.illegalOpc, .none⟩, 0x00000101) ∧
    answer State.reset 0x000000ff 0 [] = some (⟨.illegalOpc, .none⟩, 0x00000101) ∧
    answer State.reset 0x80000002 0 [] = some (⟨.reservedBits, .none⟩, 0x00000202) ∧
    answer State.reset 0x00000101 0 [] = some (⟨.reservedBits, .none⟩, 0x00000202) ∧
    answer State.reset 0x00001011 0 [] = some (⟨.reservedBits, .none⟩, 0x00000202) ∧
    answer State.reset 0x00002113 0 [] = some (⟨.reservedBits, .none⟩, 0x00000202) ∧
    answer State.reset 0x00000112 0 [0x61] = some (⟨.badCtx, .none⟩, 0x00000403) ∧
    answer State.reset 0x00001001 0x100000000 [0x61] = some (⟨.seedWidth, .none⟩, 0x00000804) ∧
    answer State.reset 0x0000000a 0 [0, 0, 0, 0] = some (⟨.noDigest, .none⟩, 0x00002006) := by decide

/-- P5, step 6: sticky bits accumulate. -/
theorem test_sticky_accumulates :
    answer { State.reset with last := 0x04, sticky := 0x0f } 0x00000011 0 [0] = some (⟨.badOperand, .none⟩, 0x00001f05) := by
  decide

/-- The transaction that stands for a table word is the one the first step after reset runs. -/
theorem test_first_step_runs_the_table_word :
    (match step (State.reset.withFetchWord 96 0x05_00001010) with
      | .next t => t.acc
      | .fault _ | .refused _ => []) = [⟨5, 5, 5, [], 0⟩] := by decide

/-! ### The datapath (spec/95 sections 2.1 to 2.3) -/

theorem test_mixer :
    rotl32 0x12345678 13 = 0x8acf0246 ∧ rotl32 0x00000001 31 = 0x80000000 ∧ rotl64 0x0123456789abcdef 33 = 0x13579bde02468acf ∧
      fmix32 0xdeadbeef = 0x0de5c6a9 ∧ fmix64 0xdeadbeefdeadbeef = 0x0f1e72c77f3f5ceb := by decide

theorem test_blocks :
    kmix32 0x6c6c6568 = 0xa0ae7465 ∧ block32 0xffffffff 0xffffffff = 0xb849f5ee ∧
      kmix1 0xffffffffffffffff = 0x11cc7f70ecdb6e49 ∧ kmix2 0xffffffffffffffff = 0x4c9a36c55305e8ad ∧
      block128 ⟨1, 2⟩ 0 0 = ⟨0x000000007adce733, 0x000000079e99deb4⟩ := by decide

/-- S3 and S4: whole blocks and no tail. -/
theorem test_winter :
    hash32Fn winterIsComing 0 = 0x43617e8f ∧
      ser128 (hash128Fn winterIsComing 0) =
        [0x95, 0xed, 0xdc, 0x61, 0x5d, 0x3b, 0x37, 0x6c, 0x13, 0xfb, 0x0b, 0x0c, 0xea, 0xd8, 0x49, 0xc5] := by decide

/-! ### The script notation (R102 to R105) -/

theorem test_script_seeded :
    Script.assembleLine "ACC.INIT    c3, seed=0x1 ; R105".toList = .ok (some ⟨0x00001310, 1, []⟩) := by decide

theorem test_script_bytes :
    Script.assembleLine "DIG.PUT fill(2, 0x61) ++ x\"00 ff\" ++ \"h\\x0A\"".toList =
      .ok (some ⟨0x0000000A, 0, [0x61, 0x61, 0x00, 0xff, 0x68, 0x0a]⟩) := by decide

theorem test_script_text :
    Script.assembleLine "ACC.WRITE_TEXT c0, \"world\"".toList = .ok (some ⟨0x00000012, 0, [0x77, 0x6f, 0x72, 0x6c, 0x64]⟩) := by
  decide

theorem test_script_raw :
    Script.assembleLine ".cmd 0x00001001, opnd=0x100000000, \"a\"".toList = .ok (some ⟨0x00001001, 0x100000000, [0x61]⟩) := by
  decide

/-- A literal that does not fit is an assembly error. -/
theorem test_script_literal : Script.assembleLine "HASH32 seed=0x100000000, \"a\"".toList = .error .badLiteral := by decide

/-! ### Witnesses: states and operands that meet the hypotheses of each obligation, clause by clause -/

/-- The outcome is a next state. -/
def goesOn : Result → Bool
  | .next _ => true
  | .fault _ | .refused _ => false

theorem next_of_goesOn {r : Result} (h : goesOn r = true) : ∃ t, r = .next t := by
  cases r with
  | next t => exact ⟨t, rfl⟩
  | fault f => cases h
  | refused r => cases h

/-- The fault an outcome is, if it is one. -/
def stopped : Result → Option Fault
  | .fault f => some f
  | .next _ | .refused _ => none

theorem fault_of_stopped {r : Result} {f : Fault} (h : stopped r = some f) : r = .fault f := by
  cases r with
  | fault g => cases h; rfl
  | next t => cases h
  | refused r => cases h

/-- Two contexts, the second with fifteen bytes waiting and its counter at the top; a digest; every status bit set. -/
def full : State where
  acc := [AccCtx.fresh 0, ⟨5, 6, 7, seq 15, 0xffffffffffffffff⟩]
  dig := some helloLanes
  last := 0x07
  sticky := 0x7f
  cfg := Config.standard
  pending := []
  responses := []

/-- The same machine with TOTAL_OVERFLOW = fault and MAX_PAYLOAD = 16. -/
def strict : State := { full with cfg := ⟨16, .fault⟩ }

/-- Seventeen bytes: one more than `strict` can be presented. -/
def seventeen : Bytes := List.replicate 17 0

theorem witness_ResetLeavesTheSpecifiedState :
    { full with pending := [.hardwareReset] }.pending = .hardwareReset :: [] ∧ (1 : BitVec 4).toNat < full.nAcc := by decide

theorem witness_ResetMeetsInvariant : 1 ≤ 1 ∧ 16 ≤ 16 ∧ Config.Legal ⟨0, .fault⟩ ∧ Config.Legal ⟨2 ^ 64 - 1, .wrap⟩ := by
  decide

theorem witness_StepKeepsInvariant : full.Inv ∧ ∃ t, step (full.present ⟨0x00000112, 0, [1]⟩) = .next t :=
  ⟨by decide, next_of_goesOn (by decide)⟩

theorem witness_RunsKeepContextInvariant :
    ∃ t, Host.Core.run core 2 { State.resetWith 2 Config.standard with
      pending := [.transaction ⟨0x00000112, 0, [1]⟩, .hardwareReset] } = .next t ∧ t.acc ≠ [] := ⟨_, rfl, by decide⟩

theorem witness_FullHistoryIsKept_exec :
    full.acc[(0 : BitVec 4).toNat]? = some (AccCtx.fresh 0) ∧ (AccCtx.fresh 0).Absorbed 0 [] ∧
      (history 0 (.accWrite 0 [1]) (0, [])).2.length < 2 ^ 64 ∧ ∃ t, exec (.accWrite 0 [1]) full = .next t :=
  ⟨rfl, by simp [AccCtx.Absorbed, AccCtx.fresh, AccCtx.lanes, slice, blocks128], by decide, next_of_goesOn (by decide)⟩

theorem witness_FullHistoryIsKept_restart :
    (1 : BitVec 4).toNat < full.nAcc ∧ full.acc[(1 : BitVec 4).toNat]? = some ⟨5, 6, 7, seq 15, 0xffffffffffffffff⟩ := by decide

/-- A write, and a word that is no instruction. -/
theorem witness_FullHistoryIsKept_step :
    full.acc[(0 : BitVec 4).toNat]? = some (AccCtx.fresh 0) ∧
    (eventHistory 0 (0, []) (.transaction ⟨0x00000012, 0, [1]⟩)) = (0, [1]) ∧
    (∃ t, step (full.present ⟨0x00000012, 0, [1]⟩) = .next t) ∧
    (eventHistory 0 (0, []) (.transaction ⟨0x00001012, 0, [1]⟩)) = (0, []) ∧
    ∃ t, step (full.present ⟨0x00001012, 0, [1]⟩) = .next t :=
  ⟨rfl, by decide, next_of_goesOn (by decide), by decide, next_of_goesOn (by decide)⟩

theorem witness_StepTakesTheOldestEvent :
    (full.present ⟨0x00000112, 0, [1]⟩).pending = .transaction ⟨0x00000112, 0, [1]⟩ :: [] ∧ [1].length ≤ full.cfg.maxPayload ∧
    decode ⟨0x00000112, 0, [1]⟩ = .ok (.accWrite 1 [1]) ∧ decode ⟨0x00001112, 0, [1]⟩ = .error .reservedBits ∧
    strict.cfg.maxPayload < seventeen.length ∧ { full with pending := [.hardwareReset] }.pending = .hardwareReset :: [] ∧
    full.pending = [] := by decide

/-- Both ends of every unassigned range, and words with one reserved bit set. -/
theorem witness_IllegalWordsAreAnswered :
    decode ⟨0x00000000, 0, []⟩ = .error .illegalOpc ∧ decode ⟨0x00000003, 0, []⟩ = .error .illegalOpc ∧
    decode ⟨0x00000007, 0, []⟩ = .error .illegalOpc ∧ decode ⟨0x0000000b, 0, []⟩ = .error .illegalOpc ∧
    decode ⟨0x0000000f, 0, []⟩ = .error .illegalOpc ∧ decode ⟨0x00000015, 0, []⟩ = .error .illegalOpc ∧
    decode ⟨0x0000002f, 0, []⟩ = .error .illegalOpc ∧ decode ⟨0x00000031, 0, []⟩ = .error .illegalOpc ∧
    decode ⟨0x000000ff, 0, []⟩ = .error .illegalOpc ∧
    (0x00002001#32).extractLsb' 13 19 ≠ 0 ∧ decode ⟨0x00002001, 0, []⟩ = .error .reservedBits ∧
    (0x8000000a#32).extractLsb' 13 19 ≠ 0 ∧ decode ⟨0x8000000a, 0, []⟩ = .error .reservedBits ∧
    (0x00002010#32).extractLsb' 13 19 ≠ 0 ∧ decode ⟨0x00002010, 0, []⟩ = .error .reservedBits ∧
    (0x80000030#32).extractLsb' 13 19 ≠ 0 ∧ decode ⟨0x80000030, 0, []⟩ = .error .reservedBits ∧
    (seq 16).length ≤ strict.cfg.maxPayload := by decide

theorem witness_CommandWordSelection :
    (∀ row ∈ table, 0x00000015#32 &&& row.2.2 ≠ row.2.1) ∧ (∀ row ∈ table, 0x00001012#32 &&& row.2.2 ≠ row.2.1) ∧
      (0x00000F12#32 &&& 0xFFFFF0FF = 0x00000012) ∧ (seq 16).length ≤ strict.cfg.maxPayload := by
  simp [table, seq, strict]

/-- Each of the seven codes, no error at all, and no error but an overflow. -/
theorem witness_CheckOrderDecidesTheResponse :
    check State.reset ⟨0x00002100, 0, []⟩ = some .illegalOpc ∧ check State.reset ⟨0x00002113, 0, []⟩ = some .reservedBits ∧
    check full ⟨0x00000210, 0, [1]⟩ = some .badCtx ∧ check full ⟨0x00001001, 0x100000000, []⟩ = some .seedWidth ∧
    check State.reset ⟨0x00000009, 0, [1]⟩ = some .badOperand ∧ check State.reset ⟨0x0000000a, 0, []⟩ = some .noDigest ∧
    check full ⟨0x0000000a, 0, seq 15⟩ = some .shortBuf ∧ check full ⟨0x0000000a, 0, seq 16⟩ = none ∧
    check full ⟨0x00000110, 0, []⟩ = none ∧ check strict ⟨0x00000112, 0, [1]⟩ = none := by
  simp [check, table, State.reset, State.resetWith, State.nAcc, full, strict, seq]

/-- The write that overflows, and one byte less. -/
theorem witness_CheckOrderDecidesTheResponse_overflow :
    OverflowStops strict ⟨0x00000112, 0, [1]⟩ ∧ ¬ OverflowStops strict ⟨0x00000112, 0, []⟩ := by
  simp [OverflowStops, strict, full]

theorem witness_FailureTouchesOnlyStatus :
    ∃ s', step (full.present ⟨0x00000211, 0, []⟩) = .next s' ∧ s'.responses = full.responses ++ [⟨.badCtx, .none⟩] ∧
      Status.badCtx ≠ .ok := ⟨_, rfl, by decide, by decide⟩

theorem witness_EncodeOfDecode : decode ⟨0x00000F12, 77, [1]⟩ = .ok (.accWrite 15 [1]) ∧
    decode ⟨0x00001F10, 77, []⟩ = .ok (.accInit 15 (some 77) []) := by decide

theorem witness_UnreadOperandIsIgnored : (0x00000F12#32).getLsbD 12 = false ∧ (0xFFFFEFFF#32).getLsbD 12 = false := by decide

theorem witness_SeedAssembly :
    decode ⟨0x00001001, 0xffffffff, []⟩ = .ok (.hash32 (some 0xffffffff) []) ∧
    (0x100000000#64).extractLsb' 32 32 ≠ 0 ∧ decode ⟨0x00001001, 0x100000000, []⟩ = .ok (.hash32 (some 0x100000000) []) ∧
    decode ⟨0x00000001, 0x100000000, []⟩ = .ok (.hash32 none []) ∧
    decode ⟨0x00001002, 0xffffffffffffffff, []⟩ = .ok (.hash128 (some 0xffffffffffffffff) []) ∧
    decode ⟨0x00001F10, 1, []⟩ = .ok (.accInit 15 (some 1) []) := by decide

theorem witness_StatusUpdatedByEveryCommand :
    (∃ t, step (full.present ⟨0x00000003, 0, []⟩) = .next t) ∧
    (∀ rest, (full.present ⟨0x00000003, 0, []⟩).pending ≠ .hardwareReset :: rest) ∧ full.sticky.getLsbD 6 = true ∧
    { full with pending := [.hardwareReset] }.pending = .hardwareReset :: [] :=
  ⟨next_of_goesOn (by decide), nofun, by decide, rfl⟩

theorem witness_ResponseValueByCommand :
    ∃ t, exec (.accSum 1 [9]) full = .next t ∧
      t.responses = full.responses ++ [⟨.ok, .bytes (9 :: ser128 (accDigest ⟨5, 6, 7, seq 15, 0xffffffffffffffff⟩))⟩] :=
  ⟨_, rfl, rfl⟩

/-- The fields of a word are legal, and illegal for each of the three reasons. -/
theorem witness_WordFor :
    FieldsLegal false true ⟨0x00001001, 0, []⟩ ∧ ¬ FieldsLegal false true ⟨0x00000101, 0, []⟩ ∧
    ¬ FieldsLegal false true ⟨0x00002001, 0, []⟩ ∧ FieldsLegal true false ⟨0x00000F12, 0, []⟩ ∧
    ¬ FieldsLegal true false ⟨0x00001012, 0, []⟩ ∧ FieldsLegal true true ⟨0x00001F10, 0, []⟩ ∧
    ¬ FieldsLegal false false ⟨0x80000030, 0, []⟩ ∧ (0x00000F12#32).extractLsb' 0 8 = 0x12 ∧
    seventeen.length ≤ full.cfg.maxPayload := by
  simp only [FieldsLegal]; decide

theorem witness_Hash32Command :
    (∀ v, (none : Option Word64) = some v → v.extractLsb' 32 32 = 0) ∧
    (∀ v, some (0xffffffff#64) = some v → v.extractLsb' 32 32 = 0) ∧ (0x100000000#64).extractLsb' 32 32 ≠ 0 :=
  ⟨nofun, fun _ h => by cases h; decide, by decide⟩

theorem witness_Hash128Command : (0x00001002#32).extractLsb' 0 8 = 0x02 := by decide

theorem witness_DigLanesCommand : full.dig = some helloLanes ∧ [1] ≠ ([] : Bytes) ∧ State.reset.dig = none := by decide

theorem witness_DigBytesCommand : full.dig = some helloLanes ∧ [1] ≠ ([] : Bytes) ∧ State.reset.dig = none := by decide

theorem witness_DigPutCommand :
    full.dig = some helloLanes ∧ 16 ≤ (seq 16).length ∧ (seq 15).length < 16 ∧ State.reset.dig = none := by decide

/-- The last context there is, and the first one there is not. -/
theorem witness_AccInitCommand :
    (1 : BitVec 4).toNat < full.nAcc ∧ full.nAcc ≤ (2 : BitVec 4).toNat ∧ [1] ≠ ([] : Bytes) := by decide

theorem witness_AccResetCommand :
    full.acc[(1 : BitVec 4).toNat]? = some ⟨5, 6, 7, seq 15, 0xffffffffffffffff⟩ ∧ full.nAcc ≤ (2 : BitVec 4).toNat ∧
      (1 : BitVec 4).toNat < full.nAcc ∧ [1] ≠ ([] : Bytes) := by decide

/-- At the overflow's edge: nothing written is one byte below it, one byte written reaches it. -/
theorem witness_AccWriteCommand :
    strict.acc[(1 : BitVec 4).toNat]? = some ⟨5, 6, 7, seq 15, 0xffffffffffffffff⟩ ∧
    ¬ (strict.cfg.totalOverflow = .fault ∧ 2 ^ 64 ≤ (0xffffffffffffffff : Word64).toNat + ([] : Bytes).length) ∧
    (strict.cfg.totalOverflow = .fault ∧ 2 ^ 64 ≤ (0xffffffffffffffff : Word64).toNat + [1].length) ∧
    ¬ (full.cfg.totalOverflow = .fault ∧ 2 ^ 64 ≤ (0xffffffffffffffff : Word64).toNat + [1].length) ∧
    (seq 15).length ≤ 15 ∧ strict.nAcc ≤ (2 : BitVec 4).toNat := by decide

theorem witness_AccSumCommand :
    full.acc[(1 : BitVec 4).toNat]? = some ⟨5, 6, 7, seq 15, 0xffffffffffffffff⟩ ∧ full.nAcc ≤ (2 : BitVec 4).toNat := by decide

theorem witness_AccSum128Command :
    full.acc[(1 : BitVec 4).toNat]? = some ⟨5, 6, 7, seq 15, 0xffffffffffffffff⟩ ∧ full.nAcc ≤ (2 : BitVec 4).toNat ∧
      (1 : BitVec 4).toNat < full.nAcc ∧ [1] ≠ ([] : Bytes) := by decide

theorem witness_RdStatusCommand : [1] ≠ ([] : Bytes) ∧ (0x00000030#32).extractLsb' 0 8 = 0x30 := by decide

theorem witness_Hash32OfBlocksAndTail : (∀ b ∈ [seq 4, seq 4], b.length = 4) ∧ (seq 3).length < 4 := by decide

theorem witness_Hash128OfBlocksAndTail : (∀ b ∈ [seq 16, seq 16], b.length = 16) ∧ (seq 15).length < 16 := by decide

theorem witness_RotationMovesBits : 31 < 32 ∧ 63 < 64 := by decide

theorem witness_LittleEndianAssemblyIsASum : 8 * (seq 8).length ≤ 64 ∧ 8 * ([] : Bytes).length ≤ 32 := by decide

theorem witness_LittleEndianRoundTrip :
    (seq 8).length = 8 ∧ (seq 4).length = 4 ∧ 7 < 8 ∧ 8 ≤ (seq 8).length ∧ 0 ≤ (seq 16).length := by decide

theorem witness_DigestViewsAgree : 16 ≤ (seq 16).length := by decide

theorem witness_ControlStateTransitions :
    full.acc[(1 : BitVec 4).toNat]? = some ⟨5, 6, 7, seq 15, 0xffffffffffffffff⟩ ∧
    (∃ t, exec (.accWrite 1 seventeen) full = .next t) ∧ (1 : BitVec 4).toNat < full.nAcc ∧
    (∃ t, exec (.accInit 1 (some 3) []) full = .next t) ∧ (∃ t, exec (.accReset 1 []) full = .next t) ∧
    (∃ t, exec (.accSum 1 [4]) full = .next t) ∧ (∃ t, exec (.accSum128 1 []) full = .next t) :=
  ⟨by decide, next_of_goesOn (by decide), by decide, next_of_goesOn (by decide), next_of_goesOn (by decide),
    next_of_goesOn (by decide), next_of_goesOn (by decide)⟩

theorem witness_QueriesLeaveTheStreamAlone :
    (∃ t, exec (.accSum 1 [4]) full = .next t) ∧ (∃ t, exec (.accSum128 1 []) full = .next t) ∧
      contextOf (.accWrite 1 [1]) = some 1 := ⟨next_of_goesOn (by decide), next_of_goesOn (by decide), rfl⟩

theorem witness_ContextsAreIndependent :
    contextOf (.accWrite 1 [1]) = some 1 ∧ (∃ t, exec (.accWrite 1 [1]) full = .next t) ∧ 0 ≠ (1 : BitVec 4).toNat ∧
    [AccCtx.fresh 9, ⟨5, 6, 7, seq 15, 0xffffffffffffffff⟩].length = full.acc.length ∧
    [AccCtx.fresh 9, ⟨5, 6, 7, seq 15, 0xffffffffffffffff⟩][(1 : BitVec 4).toNat]? = full.acc[(1 : BitVec 4).toNat]? :=
  ⟨rfl, next_of_goesOn (by decide), by decide, by decide, by decide⟩

/-- The source's own chunks: "he", "llo, ", "world" (S7). -/
def chunks : List Bytes := [[0x68, 0x65], [0x6c, 0x6c, 0x6f, 0x2c, 0x20], [0x77, 0x6f, 0x72, 0x6c, 0x64]]

theorem witness_ChunkingInvariance : (1 : BitVec 4).toNat < full.nAcc ∧ chunks.flatten.length < 2 ^ 64 := by decide

theorem witness_OneShotEquivalence :
    (1 : BitVec 4).toNat < strict.nAcc ∧ chunks.flatten.length < 2 ^ 64 ∧ (∀ d ∈ chunks, d.length ≤ strict.cfg.maxPayload) ∧
    { strict with pending := (encode (.accInit 1 none []) :: chunks.map (fun d => encode (.accWrite 1 d)) ++
      [encode (.accSum128 1 [])]).map HostEvent.transaction ++ [] }.pending =
        (encode (.accInit 1 none []) :: chunks.map (fun d => encode (.accWrite 1 d)) ++
          [encode (.accSum128 1 [])]).map HostEvent.transaction ++ [] := ⟨by decide, by decide, by decide, rfl⟩

theorem witness_ResetEquivalence :
    full.acc[(1 : BitVec 4).toNat]? = some ⟨5, 6, 7, seq 15, 0xffffffffffffffff⟩ := by decide

theorem witness_QueryMidStream : (1 : BitVec 4).toNat < full.nAcc ∧ (seq 16).length + (seq 17).length < 2 ^ 64 := by decide

theorem witness_TotalOverflowModes :
    full.acc[(1 : BitVec 4).toNat]? = some ⟨5, 6, 7, seq 15, 0xffffffffffffffff⟩ ∧ full.cfg.totalOverflow = .wrap ∧
    strict.acc[(1 : BitVec 4).toNat]? = some ⟨5, 6, 7, seq 15, 0xffffffffffffffff⟩ ∧ strict.cfg.totalOverflow = .fault := by
  decide

theorem witness_OnlyTwoStops :
    step (strict.present ⟨0x00000002, 0, seventeen⟩) = .fault .payloadTooLong ∧
      step (strict.present ⟨0x00000112, 0, [1]⟩) = .fault .totalOverflow :=
  ⟨fault_of_stopped (by decide), fault_of_stopped (by decide)⟩

theorem witness_OnlyHardwareResetClears :
    (∃ t, step (full.present ⟨0x00000211, 0, []⟩) = .next t) ∧ full.sticky.getLsbD 0 = true ∧ full.dig.isSome = true ∧
    { full with pending := [.hardwareReset] }.pending = .hardwareReset :: [] ∧
    (∃ t, exec (.accInit 1 none []) full = .next t) ∧ (∃ t, exec (.accReset 1 []) full = .next t) ∧
    0 ≠ (1 : BitVec 4).toNat :=
  ⟨next_of_goesOn (by decide), by decide, by decide, rfl, next_of_goesOn (by decide), next_of_goesOn (by decide), by decide⟩

theorem witness_RepeatedReads :
    (∃ t t', exec (.digPut (seq 16)) full = .next t ∧ exec (.digPut (seq 16)) t = .next t') ∧
    (∃ t t', exec (.accSum128 1 []) full = .next t ∧ exec (.accSum128 1 []) t = .next t') ∧
    (∃ t t', exec (.accWrite 1 [1]) full = .next t ∧ exec (.accWrite 1 [1]) t = .next t') ∧
    (∃ t, exec (.rdStatus []) full = .next t) ∧ ∀ data, Instr.accWrite 1 [1] ≠ .rdStatus data :=
  ⟨⟨_, _, rfl, rfl⟩, ⟨_, _, rfl, rfl⟩, ⟨_, _, rfl, rfl⟩, ⟨_, rfl⟩, nofun⟩

/-- A context to sum, a command that is neither, and an ACC_SUM128 of a context that is not there. -/
theorem witness_DigestWriters :
    full.acc[(1 : BitVec 4).toNat]? = some ⟨5, 6, 7, seq 15, 0xffffffffffffffff⟩ ∧
    (∀ seed data, Instr.accSum128 2 [] ≠ .hash128 seed data) ∧
    (∀ c : BitVec 4, c.toNat < full.nAcc → Instr.accSum128 2 [] ≠ .accSum128 c []) ∧
    (∃ t, exec (.accSum128 2 []) full = .next t) ∧ ∃ t, exec (.accSum 1 []) full = .next t :=
  ⟨by decide, nofun, by decide, next_of_goesOn (by decide), next_of_goesOn (by decide)⟩

theorem witness_SeedWriters :
    (∃ t, exec (.accInit 1 (some 3) []) full = .next t) ∧ ∃ t, exec (.accReset 1 []) full = .next t :=
  ⟨next_of_goesOn (by decide), next_of_goesOn (by decide)⟩

/-- A last beat that is not full, one that is, and no beat at all. -/
theorem witness_BeatsCarryData :
    0 < 4 ∧ 3 < 4 ∧ 1 + 1 < (beats 4 (seq 9)).length ∧ beats 4 (seq 9) = [[0, 1, 2, 3], [4, 5, 6, 7], [8]] ∧
      beats 4 (seq 8) = [[0, 1, 2, 3], [4, 5, 6, 7]] ∧ seq 8 ≠ [] ∧ beats 4 [] = [] := by decide

theorem witness_QueueAnsweredInOrder :
    { full with pending :=
      [Transaction.mk 0x00000003 0 [], ⟨0x00000112, 0, [1]⟩].map HostEvent.transaction ++ [HostEvent.hardwareReset] }.pending =
        [Transaction.mk 0x00000003 0 [], ⟨0x00000112, 0, [1]⟩].map HostEvent.transaction ++ [HostEvent.hardwareReset] ∧
    full.cfg.totalOverflow = .wrap ∧
    ∀ t ∈ [Transaction.mk 0x00000003 0 [], ⟨0x00000112, 0, [1]⟩], t.data.length ≤ full.cfg.maxPayload :=
  ⟨rfl, rfl, by decide⟩

theorem witness_EmptyTailsChangeNothing : (seq 8).length ≤ 8 := by decide

theorem witness_NoInitialisationIsNeeded : (15 : BitVec 4).toNat < 16 ∧ (seq 17).length < 2 ^ 64 := by decide

theorem witness_PseudoCommandsExpand :
    Script.command ['A', 'C', 'C', '.', 'W', 'R', 'I', 'T', 'E', '_', 'T', 'E', 'X', 'T']
      [.word ['c', '1'], .comma, .text [.char 'h']] = .ok (.accWrite 1 [0x68]) := by decide

theorem witness_RunsKeepFullHistory :
    ∃ t a, Host.Core.run core 2 { State.resetWith 2 Config.standard with
        pending := [.transaction ⟨0x00001110, 9, []⟩, .transaction ⟨0x00000112, 0, [1]⟩] } = .next t ∧
      t.acc[(1 : BitVec 4).toNat]? = some a ∧
      ([HostEvent.transaction ⟨0x00001110, 9, []⟩, .transaction ⟨0x00000112, 0, [1]⟩].foldl (eventHistory 1) (0, [])) =
        (9, [1]) := ⟨_, _, rfl, rfl, by decide⟩

end Sys2Proof.Tests
end

section
/-! Little-endian assembly and serialization (spec/00_scope.md R16 to R18): the bits of LE_w, its value as a sum, and that
LE_w and LEbytes_n are inverse to each other. -/

namespace Sys2Proof.Machine

open Sys2Proof.Claims

theorem leSum_lt (s : Bytes) : leSum s < 2 ^ (8 * s.length) := by
  induction s with
  | nil => simp [leSum]
  | cons b rest ih =>
    have hb : b.toNat < 256 := b.isLt
    rw [List.length_cons, Nat.mul_succ, Nat.pow_add]
    simp only [leSum]
    omega

/-- LE_w of a sequence that fits is its sum (R16): the first byte and the shifted rest share no bit, and no bit is shifted
out. -/
theorem toNat_leWord (w : Nat) (s : Bytes) (h : 8 * s.length ≤ w) : (leWord w s).toNat = leSum s := by
  induction s with
  | nil => simp [leSum]
  | cons b rest ih =>
    rw [List.length_cons] at h
    have hb : b.toNat < 2 ^ 8 := b.isLt
    have hbw : b.toNat % 2 ^ w = b.toNat :=
      Nat.mod_eq_of_lt (hb.trans_le (Nat.pow_le_pow_right (by omega) (by omega)))
    have hrest : leSum rest <<< 8 < 2 ^ w := by
      calc leSum rest <<< 8 = leSum rest * 2 ^ 8 := Nat.shiftLeft_eq _ _
        _ < 2 ^ (8 * rest.length) * 2 ^ 8 := Nat.mul_lt_mul_of_pos_right (leSum_lt rest) (by decide)
        _ = 2 ^ (8 * rest.length + 8) := (Nat.pow_add ..).symm
        _ ≤ 2 ^ w := Nat.pow_le_pow_right (by omega) (by omega)
    rw [leWord_cons, BitVec.toNat_or, BitVec.toNat_setWidth, BitVec.toNat_shiftLeft, ih (by omega), hbw,
      Nat.mod_eq_of_lt hrest, Nat.or_comm, ← Nat.shiftLeft_add_eq_or_of_lt hb, Nat.shiftLeft_eq]
    simp only [leSum]
    omega

/-- Bit j of LE_w is bit `j % 8` of byte `j / 8`, and zero where there is no such byte. -/
theorem getLsbD_leWord (w : Nat) (s : Bytes) {j : Nat} (hj : j < w) :
    (leWord w s).getLsbD j = (s[j / 8]?.getD 0).getLsbD (j % 8) := by
  induction s generalizing j with
  | nil => simp
  | cons b rest ih =>
    rw [leWord_cons, BitVec.getLsbD_or, BitVec.getLsbD_shiftLeft, BitVec.getLsbD_setWidth]
    by_cases h : j < 8
    · simp [h, hj, Nat.div_eq_of_lt h, Nat.mod_eq_of_lt h]
    · obtain ⟨i, rfl⟩ : ∃ i, j = i + 8 := ⟨j - 8, by omega⟩
      simp [h, hj, ih (show i < w by omega)]

/-- LE undoes LEbytes when the bytes cover the word. -/
theorem leWord_leBytes (n : Nat) {w : Nat} (v : BitVec w) (h : w ≤ 8 * n) : leWord w (leBytes n v) = v := by
  apply BitVec.eq_of_getLsbD_eq
  intro j hj
  rw [getLsbD_leWord _ _ hj, leBytes_getElem? n v (show j / 8 < n by omega)]
  simp [Nat.mod_lt, Nat.div_add_mod]

/-- LEbytes undoes LE on a sequence that fits the word. -/
theorem leBytes_leWord (w : Nat) (s : Bytes) (h : 8 * s.length ≤ w) : leBytes s.length (leWord w s) = s := by
  refine List.ext_getElem (length_leBytes ..) fun i _ hi => ?_
  have hget : (leBytes s.length (leWord w s))[i]? = some ((leWord w s).extractLsb' (8 * i) 8) := leBytes_getElem? _ _ hi
  rw [(List.getElem_eq_iff _).mpr hget]
  apply BitVec.eq_of_getLsbD_eq
  intro j hj
  have hbyte : (8 * i + j) / 8 = i ∧ (8 * i + j) % 8 = j := by omega
  simp [hj, getLsbD_leWord w s (show 8 * i + j < w by omega), hbyte, hi]

/-- The bytes a MemWrite put at an offset of the output or at its end are those a slice takes from there (R18). -/
theorem slice_memWrite (out : Bytes) (off n : Nat) {w : Nat} (v : BitVec w) (h : off ≤ out.length) :
    slice (memWrite out off n v) off (off + n) = leBytes n v := by
  rw [slice_eq_take_drop, memWrite, List.append_assoc, List.drop_left' (List.length_take_of_le h),
    List.take_left' (length_leBytes n v)]

end Sys2Proof.Machine

namespace Sys2Proof

open Machine

/-- Settles O34, by induction on the sequence. -/
theorem littleEndianAssemblyIsASum : Obligations.LittleEndianAssemblyIsASum := toNat_leWord

/-- Settles O35, from the two inverses at every width. -/
theorem littleEndianRoundTrip : Obligations.LittleEndianRoundTrip := by
  refine ⟨fun v => leWord_leBytes 8 v le_rfl, fun v => leWord_leBytes 4 v le_rfl, fun s hs => ?_, fun s hs => ?_,
    fun n w v => ⟨length_leBytes n v, fun i hi => leBytes_getElem? n v hi⟩, fun out off v h => ?_⟩
  · simpa [hs] using leBytes_leWord 64 s (by omega)
  · simpa [hs] using leBytes_leWord 32 s (by omega)
  · rw [memRead, slice_memWrite out off 8 v h, leWord_leBytes 8 v le_rfl]

end Sys2Proof
end

section
/-! What an instruction or a step that goes on can have done: to STATUS, to the parameters, to the contexts. -/

namespace Sys2Proof.Machine

open Sys2Proof.Claims

/-- Whatever state the result goes on to meets `P`. -/
def Ensures (P : State → Prop) (r : Result) : Prop := ∀ t, r = .next t → P t

section checks

variable {P : State → Prop} {s : State}

theorem ensures_next {t : State} (h : P t) : Ensures P (.next t) := by
  rintro _ ⟨⟩; exact h

theorem ensures_fault (f : Fault) : Ensures P (.fault f) := nofun

theorem ensures_withContext {c : BitVec 4} {k : AccCtx → Result} (hfail : P (s.fail .badCtx))
    (hk : ∀ a, s.acc[c.toNat]? = some a → Ensures P (k a)) : Ensures P (withContext s c k) := by
  cases h : s.acc[c.toNat]? with
  | none => rw [withContext_none h]; exact ensures_next hfail
  | some a => rw [withContext_some h]; exact hk a h

theorem ensures_withSeed32 {seed : Option Word64} {k : Word32 → Result} (hfail : P (s.fail .seedWidth))
    (hk : ∀ v, Ensures P (k v)) : Ensures P (withSeed32 s seed k) := by
  unfold withSeed32; split
  · exact hk _
  · exact ensures_next hfail

theorem ensures_withNoData {data : Bytes} {k : Result} (hfail : P (s.fail .badOperand))
    (hk : data = [] → Ensures P k) : Ensures P (withNoData s data k) := by
  by_cases h : data = []
  · subst h; exact hk rfl
  · rw [withNoData_of_ne h]; exact ensures_next hfail

theorem ensures_withDigest {k : Lanes → Result} (hfail : P (s.fail .noDigest))
    (hk : ∀ l, s.dig = some l → Ensures P (k l)) : Ensures P (withDigest s k) := by
  cases h : s.dig with
  | none => rw [withDigest_none h]; exact ensures_next hfail
  | some l => rw [withDigest_some h]; exact hk l h

theorem ensures_withBuffer {data : Bytes} {k : Result} (hfail : P (s.fail .shortBuf))
    (hk : 16 ≤ data.length → Ensures P k) : Ensures P (withBuffer s data k) := by
  by_cases h : data.length < 16
  · rw [withBuffer_short h]; exact ensures_next hfail
  · rw [withBuffer_long (Nat.not_lt.mp h)]; exact hk (Nat.not_lt.mp h)

end checks

/-- The contexts after an instruction that goes on: as before, or with the one it names initialised (R230), restarted (R231)
or written (R233). -/
inductive ContextsAfter (acc : List AccCtx) : Instr → List AccCtx → Prop
  | same (i : Instr) : ContextsAfter acc i acc
  | init {c : BitVec 4} (seed : Option Word64) :
      ContextsAfter acc (.accInit c seed []) (acc.set c.toNat (AccCtx.fresh (seed64 seed)))
  | restart {c : BitVec 4} {a : AccCtx} (h : acc[c.toNat]? = some a) :
      ContextsAfter acc (.accReset c []) (acc.set c.toNat a.restart)
  | absorb {c : BitVec 4} {a : AccCtx} (data : Bytes) (h : acc[c.toNat]? = some a) :
      ContextsAfter acc (.accWrite c data) (acc.set c.toNat (absorb a data))

theorem ensures_contextsAfter (i : Instr) (s : State) :
    Ensures (fun t => ContextsAfter s.acc i t.acc) (exec i s) := by
  have unchanged (st : Status) (v : Value) : ContextsAfter s.acc i (s.respond st v).acc := .same i
  cases i <;> simp only [exec]
  case hash32 => exact ensures_withSeed32 (unchanged _ _) fun _ => ensures_next (unchanged _ _)
  case hash128 => exact ensures_next (.same _)
  case digLanes | digBytes =>
    exact ensures_withNoData (unchanged _ _) fun _ =>
      ensures_withDigest (unchanged _ _) fun _ _ => ensures_next (unchanged _ _)
  case digPut =>
    exact ensures_withDigest (unchanged _ _) fun _ _ =>
      ensures_withBuffer (unchanged _ _) fun _ => ensures_next (unchanged _ _)
  case accInit ctx seed data =>
    refine ensures_withContext (unchanged _ _) fun a _ => ensures_withNoData (unchanged _ _) ?_
    rintro rfl
    exact ensures_next (.init seed)
  case accReset ctx data =>
    refine ensures_withContext (unchanged _ _) fun a ha => ensures_withNoData (unchanged _ _) ?_
    rintro rfl
    exact ensures_next (.restart ha)
  case accWrite ctx data =>
    refine ensures_withContext (unchanged _ _) fun a ha => ?_
    split
    · exact ensures_fault _
    · exact ensures_next (.absorb data ha)
  case accSum => exact ensures_withContext (unchanged _ _) fun _ _ => ensures_next (unchanged _ _)
  case accSum128 =>
    exact ensures_withContext (unchanged _ _) fun _ _ =>
      ensures_withNoData (unchanged _ _) fun _ => ensures_next (.same _)
  case rdStatus => exact ensures_withNoData (unchanged _ _) fun _ => ensures_next (unchanged _ _)

theorem exec_contextsAfter {i : Instr} {s t : State} (h : exec i s = .next t) : ContextsAfter s.acc i t.acc :=
  ensures_contextsAfter i s t h

theorem ContextsAfter.length_eq {acc acc' : List AccCtx} {i : Instr} (h : ContextsAfter acc i acc') :
    acc'.length = acc.length := by
  cases h <;> simp

theorem answers_respond (s : State) (st : Status) (v : Value) : Answers s (s.respond st v) st v :=
  ⟨rfl, rfl, fun n _ => stickyAfter_getLsbD s.sticky st n, rfl, rfl⟩

/-- Every instruction that goes on answers (R100, R43). -/
theorem exec_answers {i : Instr} {s t : State} (h : exec i s = .next t) : ∃ st v, Answers s t st v := by
  have he := exec_effect i s
  rw [h] at he
  cases he with
  | error code _ => exact ⟨code, .none, answers_respond s code .none⟩
  | answer v => exact ⟨.ok, v, answers_respond s .ok v⟩
  | digest l v => exact ⟨.ok, v, answers_respond (s.setDigest l) .ok v⟩
  | context c a => exact ⟨.ok, .none, answers_respond (s.setContext c a) .ok .none⟩

section head

variable {s : State} {t : Transaction} {rest : List HostEvent}

theorem step_head_ok {i : Instr} (h : s.pending = .transaction t :: rest) (hlen : t.data.length ≤ s.cfg.maxPayload)
    (hd : decode t = .ok i) : step s = exec i { s with pending := rest } :=
  (congrArg step (State.eq_present h)).trans (step_present_ok hlen hd)

theorem step_head_error {e : Status} (h : s.pending = .transaction t :: rest) (hlen : t.data.length ≤ s.cfg.maxPayload)
    (hd : decode t = .error e) : step s = .next ({ s with pending := rest }.fail e) :=
  (congrArg step (State.eq_present h)).trans (step_present_error hlen hd)

theorem step_head_long (h : s.pending = .transaction t :: rest) (hlen : s.cfg.maxPayload < t.data.length) :
    step s = .fault .payloadTooLong :=
  (congrArg step (State.eq_present h)).trans (step_present_long hlen)

end head

/-- What a step that goes on has done with the oldest event: there was none, or a reset signal, or a transaction that was
answered with the error of its word or run as its instruction. -/
inductive StepNext (s : State) : State → Prop
  | idle (h : s.pending = []) : StepNext s s
  | reset {rest : List HostEvent} (h : s.pending = .hardwareReset :: rest) :
      StepNext s { s with pending := rest }.hardwareReset
  | illegal {t : Transaction} {rest : List HostEvent} {e : Status} (h : s.pending = .transaction t :: rest)
      (hlen : t.data.length ≤ s.cfg.maxPayload) (hd : decode t = .error e) : StepNext s ({ s with pending := rest }.fail e)
  | instr {t : Transaction} {rest : List HostEvent} {i : Instr} {s' : State} (h : s.pending = .transaction t :: rest)
      (hlen : t.data.length ≤ s.cfg.maxPayload) (hd : decode t = .ok i)
      (hexec : exec i { s with pending := rest } = .next s') : StepNext s s'

theorem stepNext_of_step {s s' : State} (h : step s = .next s') : StepNext s s' := by
  rcases hp : s.pending with _ | ⟨t | _, rest⟩
  case nil => rw [step_idle hp] at h; cases h; exact .idle hp
  case cons.hardwareReset => rw [step_reset hp] at h; cases h; exact .reset hp
  case cons.transaction =>
    by_cases hlen : t.data.length ≤ s.cfg.maxPayload
    · cases hd : decode t with
      | error e => rw [step_head_error hp hlen hd] at h; cases h; exact .illegal hp hlen hd
      | ok i => exact .instr hp hlen hd (step_head_ok hp hlen hd ▸ h)
    · rw [step_head_long hp (Nat.not_le.mp hlen)] at h; cases h

end Sys2Proof.Machine
end

section
/-! The machine's invariant (spec/10_state.md R36, R42, R43; spec/00_scope.md R8, R9): the reset values meet it, and every
operation on a context and every answer keeps it. -/

namespace Sys2Proof.Machine

open Sys2Proof.Claims

theorem AccCtx.inv_fresh (seed : Word64) : (AccCtx.fresh seed).Inv := by simp [AccCtx.Inv]

theorem AccCtx.inv_restart (a : AccCtx) : a.restart.Inv := a.restart_eq_fresh ▸ AccCtx.inv_fresh a.seed

/-- ABSORB keeps R36: TLEN and TOTAL both grow by the length of the data, TLEN modulo 16 and TOTAL modulo 2^64, a multiple of
16. -/
theorem AccCtx.Inv.absorb {a : AccCtx} (h : a.Inv) (data : Bytes) : (absorb a data).Inv := by
  obtain ⟨-, htotal⟩ := h
  constructor
  · rw [absorb_tail_length]; omega
  · rw [absorb_tail_length, absorb_total_toNat]; omega

theorem ContextsAfter.keeps_inv {acc acc' : List AccCtx} {i : Instr} (h : ContextsAfter acc i acc')
    (hacc : ∀ a ∈ acc, a.Inv) : ∀ a ∈ acc', a.Inv := by
  have inv_set (n : Nat) {b : AccCtx} (hb : b.Inv) : ∀ a ∈ acc.set n b, a.Inv := fun a ha =>
    (List.mem_or_eq_of_mem_set ha).elim (hacc a) fun hab => hab ▸ hb
  cases h with
  | same => exact hacc
  | init => exact inv_set _ (AccCtx.inv_fresh _)
  | restart => exact inv_set _ (AccCtx.inv_restart _)
  | absorb data h => exact inv_set _ ((hacc _ (List.mem_of_getElem? h)).absorb data)

theorem statusInv_zero : StatusInv 0 0 := ⟨Nat.zero_le 7, fun h => absurd rfl h⟩

/-- An answer leaves a legal STATUS, whatever it was before. -/
theorem statusInv_of_answers {s t : State} {st : Status} {v : Value} (h : Answers s t st v) :
    StatusInv t.last t.sticky := by
  obtain ⟨-, hlast, hsticky, -, -⟩ := h
  have hcode : st.code.toNat ≤ 7 := by cases st <;> decide
  rw [hlast]
  refine ⟨hcode, fun hne => ?_⟩
  have hpos : st.code.toNat ≠ 0 := fun h0 => hne (BitVec.eq_of_toNat_eq h0)
  rw [hsticky _ (by omega)]
  simp [Nat.sub_add_cancel (Nat.pos_of_ne_zero hpos)]

theorem State.Inv.contexts {s : State} (hs : s.Inv) : ∀ a ∈ s.acc, a.Inv := by
  obtain ⟨-, -, hacc, -⟩ := hs
  exact hacc

/-- A command that answers keeps the invariant if it keeps that of the contexts. -/
theorem State.Inv.of_answers {s t : State} {st : Status} {v : Value} (hs : s.Inv) (h : Answers s t st v)
    (hlen : t.acc.length = s.acc.length) (hacc : ∀ a ∈ t.acc, a.Inv) : t.Inv := by
  obtain ⟨hn, hlegal, -, -⟩ := hs
  have hstatus := statusInv_of_answers h
  obtain ⟨-, -, -, hcfg, -⟩ := h
  exact ⟨by rwa [State.nAcc, hlen], hcfg ▸ hlegal, hacc, hstatus⟩

theorem State.Inv.exec {i : Instr} {s t : State} (hs : s.Inv) (h : exec i s = .next t) : t.Inv := by
  obtain ⟨st, v, hans⟩ := exec_answers h
  have hctx := exec_contextsAfter h
  exact hs.of_answers hans hctx.length_eq (hctx.keeps_inv hs.contexts)

theorem State.Inv.hardwareReset {s : State} (hs : s.Inv) : s.hardwareReset.Inv := by
  obtain ⟨hn, hlegal, -, -⟩ := hs
  refine ⟨by simpa [State.nAcc] using hn, hlegal, ?_, statusInv_zero⟩
  simp only [State.hardwareReset_acc, List.mem_map]
  rintro _ ⟨_, _, rfl⟩
  exact AccCtx.inv_fresh 0

theorem State.inv_resetWith {n : Nat} {cfg : Config} (h1 : 1 ≤ n) (h16 : n ≤ 16) (hcfg : cfg.Legal) :
    (State.resetWith n cfg).Inv := by
  refine ⟨by simpa [State.nAcc, State.resetWith] using ⟨h1, h16⟩, hcfg, fun a ha => ?_, statusInv_zero⟩
  exact List.eq_of_mem_replicate ha ▸ AccCtx.inv_fresh 0

theorem State.Inv.step {s t : State} (hs : s.Inv) (h : step s = .next t) : t.Inv := by
  cases stepNext_of_step h with
  | idle => exact hs
  | @reset rest _ => exact State.Inv.hardwareReset (s := { s with pending := rest }) hs
  | @illegal _ rest e _ _ _ =>
    exact State.Inv.of_answers (s := { s with pending := rest }) hs (answers_respond _ e .none) rfl hs.contexts
  | @instr _ rest _ _ _ _ _ hexec => exact State.Inv.exec (s := { s with pending := rest }) hs hexec

end Sys2Proof.Machine

namespace Sys2Proof

open Machine

/-- Settles O3, by what a step can have done with the oldest event. -/
theorem stepKeepsInvariant : Obligations.StepKeepsInvariant := fun _ _ hs h => hs.step h

/-- Settles O2: the initial state is the reset state with one context and the standard parameters. -/
theorem resetMeetsInvariant : Obligations.ResetMeetsInvariant :=
  ⟨State.inv_resetWith le_rfl (by decide) le_rfl, fun _ _ => State.inv_resetWith⟩

end Sys2Proof
end

section
/-! The writers of a seed (spec/10_state.md R31), and TOTAL under either TOTAL_OVERFLOW (spec/00_scope.md R11). -/

namespace Sys2Proof.Machine

/-- Writing a context with its own seed changes no seed. -/
theorem map_seed_set {acc : List AccCtx} {n : Nat} {a b : AccCtx} (h : acc[n]? = some a) (hseed : b.seed = a.seed) :
    (acc.set n b).map (·.seed) = acc.map (·.seed) := by
  obtain ⟨hn, rfl⟩ := List.getElem?_eq_some_iff.mp h
  have hb : b.seed = (acc.map (·.seed))[n]'(by simpa using hn) := by rw [hseed, List.getElem_map]
  rw [List.map_set, hb, List.set_getElem_self]

theorem ContextsAfter.seeds {acc acc' : List AccCtx} {i : Instr} (h : ContextsAfter acc i acc') :
    acc'.map (·.seed) = acc.map (·.seed) ∨
      ∃ (c : BitVec 4) (seed : Option Word64), i = .accInit c seed [] ∧
        acc'.map (·.seed) = (acc.map (·.seed)).set c.toNat (seed.getD 0) := by
  cases h with
  | same => exact .inl rfl
  | @init c seed => exact .inr ⟨c, seed, rfl, List.map_set⟩
  | restart h => exact .inl (map_seed_set h (AccCtx.restart_seed _))
  | absorb data h => exact .inl (map_seed_set h (absorb_seed _ _))

/-- The state after a write of `data` to context `c`, which was `a` (R233). -/
def State.afterWrite (s : State) (c : BitVec 4) (a : AccCtx) (data : Bytes) : State :=
  (s.setContext c (absorb a data)).respond .ok .none

section write

variable {s : State} {c : BitVec 4} {a : AccCtx} {data : Bytes}

theorem exec_accWrite_fault (h : s.acc[c.toNat]? = some a) (hov : OverflowFaults s.cfg a data) :
    exec (.accWrite c data) s = .fault .totalOverflow := by
  rw [exec, execAccWrite, withContext_some h, if_pos hov]

theorem exec_accWrite_next (h : s.acc[c.toNat]? = some a) (hov : ¬ OverflowFaults s.cfg a data) :
    exec (.accWrite c data) s = .next (s.afterWrite c a data) := by
  rw [exec, execAccWrite, withContext_some h, if_neg hov]; rfl

theorem afterWrite_acc_self (h : s.acc[c.toNat]? = some a) :
    (s.afterWrite c a data).acc[c.toNat]? = some (absorb a data) := by
  obtain ⟨hlt, -⟩ := List.getElem?_eq_some_iff.mp h
  exact List.getElem?_set_self hlt

end write

/-- The digest after a write mixes the length counted modulo 2^64 (R11, R234). -/
theorem accDigest_absorb (a : AccCtx) (data : Bytes) :
    accDigest (absorb a data) =
      final128 (absorb a data).lanes (absorb a data).tail (BitVec.ofNat 64 (a.total.toNat + data.length)) := by
  rw [accDigest, absorb_total, BitVec.ofNat_add, BitVec.ofNat_toNat, BitVec.setWidth_eq]

end Sys2Proof.Machine

namespace Sys2Proof

open Machine

/-- Settles O51, from the contexts an instruction can leave. -/
theorem seedWriters : Obligations.SeedWriters := fun _ _ _ h =>
  have hctx := exec_contextsAfter h
  ⟨hctx.length_eq, hctx.seeds⟩

/-- Settles O45, from the two outcomes of a write to a context that is there. -/
theorem totalOverflowModes : Obligations.TotalOverflowModes := by
  refine ⟨rfl, fun s c a data ha => ⟨fun hwrap => ?_, fun hfault => ⟨fun h => ?_, fun hov => ?_⟩⟩⟩
  · have hno : ¬ OverflowFaults s.cfg a data := by simp [OverflowFaults, hwrap]
    exact ⟨_, _, exec_accWrite_next ha hno, afterWrite_acc_self ha, absorb_total_toNat a data, accDigest_absorb a data⟩
  · by_contra hlt
    rw [exec_accWrite_next ha fun hov => hlt hov.2] at h
    cases h
  · exact exec_accWrite_fault ha ⟨hfault, hov⟩

end Sys2Proof
end

section
/-! The one-shot hashers and STATUS (spec/41_hash32.md R167, spec/42_hash128.md R201, spec/10_state.md R38, R43), and the
writers of DIG (R44). -/

namespace Sys2Proof.Machine

open Sys2Proof.Claims

theorem exec_hash32_fits {seed : Option Word64} (h : (seed.getD 0).extractLsb' 32 32 = 0) (data : Bytes) (s : State) :
    exec (.hash32 seed data) s = .next (s.respond .ok (.u32 (hash32Fn data (seed32 seed)))) := by
  rw [exec, execHash32, withSeed32, if_pos h]; rfl

theorem exec_hash32_wide {seed : Option Word64} (h : (seed.getD 0).extractLsb' 32 32 ≠ 0) (data : Bytes) (s : State) :
    exec (.hash32 seed data) s = .next (s.respond .seedWidth .none) := by
  rw [exec, execHash32, withSeed32, if_neg h]; rfl

theorem exec_hash128_next (seed : Option Word64) (data : Bytes) (s : State) :
    exec (.hash128 seed data) s = .next
      ((s.setDigest (hash128Fn data (seed64 seed))).respond .ok (.lanes (hash128Fn data (seed64 seed)))) := rfl

/-- Whatever HASH32 answers, it is the same in every state, and nothing but STATUS and the responses changes. -/
theorem exec_hash32_answer (seed : Option Word64) (data : Bytes) :
    ∃ st v, ∀ s, exec (.hash32 seed data) s = .next (s.respond st v) := by
  by_cases h : (seed.getD 0).extractLsb' 32 32 = 0
  · exact ⟨_, _, exec_hash32_fits h data⟩
  · exact ⟨_, _, exec_hash32_wide h data⟩

theorem exec_accSum128_next {s : State} {c : BitVec 4} {a : AccCtx} (h : s.acc[c.toNat]? = some a) :
    exec (.accSum128 c []) s = .next ((s.setDigest (accDigest a)).respond .ok (.lanes (accDigest a))) := by
  rw [exec, execAccSum128, withContext_some h, withNoData_nil]; rfl

theorem exec_rdStatus_next (s : State) : exec (.rdStatus []) s = .next (s.respond .ok (.u32 s.statusReg)) := rfl

/-- Every instruction that goes on keeps DIG, but for HASH128 and an ACC_SUM128 that its checks let through. -/
theorem ensures_dig_unchanged {i : Instr} {s : State} (hhash : ∀ seed data, i ≠ .hash128 seed data)
    (hsum : ∀ c : BitVec 4, c.toNat < s.nAcc → i ≠ .accSum128 c []) :
    Ensures (fun t => t.dig = s.dig) (exec i s) := by
  cases i <;> simp only [exec]
  case hash32 => exact ensures_withSeed32 rfl fun _ => ensures_next rfl
  case hash128 seed data => exact absurd rfl (hhash seed data)
  case digLanes | digBytes => exact ensures_withNoData rfl fun _ => ensures_withDigest rfl fun _ _ => ensures_next rfl
  case digPut => exact ensures_withDigest rfl fun _ _ => ensures_withBuffer rfl fun _ => ensures_next rfl
  case accInit | accReset => exact ensures_withContext rfl fun _ _ => ensures_withNoData rfl fun _ => ensures_next rfl
  case accWrite =>
    refine ensures_withContext rfl fun _ _ => ?_
    split
    · exact ensures_fault _
    · exact ensures_next rfl
  case accSum => exact ensures_withContext rfl fun _ _ => ensures_next rfl
  case accSum128 c data =>
    refine ensures_withContext rfl fun a ha => ensures_withNoData rfl ?_
    rintro rfl
    obtain ⟨hlt, -⟩ := List.getElem?_eq_some_iff.mp ha
    exact absurd rfl (hsum c hlt)
  case rdStatus => exact ensures_withNoData rfl fun _ => ensures_next rfl

/-- An instruction that goes on answers, and an error has no value (R272). -/
theorem exec_answers_none_of_error {i : Instr} {s t : State} (h : exec i s = .next t) :
    ∃ st v, Answers s t st v ∧ (st ≠ .ok → v = .none) := by
  have he := exec_effect i s
  rw [h] at he
  cases he with
  | error code _ => exact ⟨code, .none, answers_respond s code .none, fun _ => rfl⟩
  | answer v => exact ⟨.ok, v, answers_respond s .ok v, nofun⟩
  | digest l v => exact ⟨.ok, v, answers_respond (s.setDigest l) .ok v, nofun⟩
  | context c a => exact ⟨.ok, .none, answers_respond (s.setContext c a) .ok .none, nofun⟩

/-- A transaction that a step takes is answered with one response, and an error has no value. -/
theorem step_present_answers {s s' : State} {t : Transaction} (h : step (s.present t) = .next s') :
    ∃ st v, Answers s s' st v ∧ (st ≠ .ok → v = .none) := by
  by_cases hlen : t.data.length ≤ s.cfg.maxPayload
  · cases hd : decode t with
    | ok i => exact exec_answers_none_of_error (step_present_ok hlen hd ▸ h)
    | error e =>
      rw [step_present_error hlen hd] at h
      cases h
      exact ⟨e, .none, answers_respond s e .none, fun _ => rfl⟩
  · rw [step_present_long (Nat.not_le.mp hlen)] at h
    cases h

/-- No answer clears a STICKY bit. -/
theorem sticky_mono_of_answers {s t : State} {st : Status} {v : Value} (h : Answers s t st v) {n : Nat}
    (hn : s.sticky.getLsbD n = true) : t.sticky.getLsbD n = true := by
  obtain ⟨-, -, hsticky, -, -⟩ := h
  rw [hsticky n (BitVec.lt_of_getLsbD hn), hn, Bool.true_or]

/-- A step that does not take a reset signal clears no STICKY bit. -/
theorem step_sticky_mono {s t : State} (h : step s = .next t) (hreset : ∀ rest, s.pending ≠ .hardwareReset :: rest)
    {n : Nat} (hn : s.sticky.getLsbD n = true) : t.sticky.getLsbD n = true := by
  cases stepNext_of_step h with
  | idle => exact hn
  | reset hp => exact absurd hp (hreset _)
  | @illegal _ rest e _ _ _ => exact sticky_mono_of_answers (answers_respond { s with pending := rest } e .none) hn
  | instr _ _ _ hexec =>
    obtain ⟨st, v, hans⟩ := exec_answers hexec
    exact sticky_mono_of_answers hans hn

end Sys2Proof.Machine

namespace Sys2Proof

open Machine

/-- Settles O56, from the outcomes of HASH32 and HASH128, which are the same in every state. -/
theorem oneShotKeepsNoState : Obligations.OneShotKeepsNoState := by
  intro s s' seed data
  obtain ⟨st, v, hhash32⟩ := exec_hash32_answer seed data
  exact ⟨_, _, _, _, ⟨st, v⟩, _, hhash32 s, hhash32 s', rfl, rfl, rfl, rfl,
    exec_hash128_next seed data s, exec_hash128_next seed data s', rfl, rfl, rfl, rfl⟩

/-- Settles O50: the two writers run to their end, and no other instruction reaches a write of DIG. -/
theorem digestWriters : Obligations.DigestWriters :=
  ⟨fun s seed data => ⟨_, exec_hash128_next seed data s, rfl⟩, fun _ _ _ ha => ⟨_, exec_accSum128_next ha, rfl⟩,
    fun _ _ t hhash hsum h => ensures_dig_unchanged hhash hsum t h⟩

/-- Settles O16, from what an answer does to STATUS. -/
theorem statusUpdatedByEveryCommand : Obligations.StatusUpdatedByEveryCommand :=
  ⟨fun _ _ _ => step_present_answers, fun s => ⟨_, exec_rdStatus_next s, rfl, rfl⟩,
    fun _ _ h hreset _ => step_sticky_mono h hreset, fun _ _ hp => ⟨_, step_reset hp, rfl⟩⟩

end Sys2Proof
end

section
/-! One context through instructions, host events and runs, as a function of that context alone; and the context state
invariant over runs (spec/10_state.md R36). -/

namespace Sys2Proof.Machine

open Sys2Proof.Claims

/-- What an instruction that goes on makes of context `c`, which was `a`. -/
def contextAfter (c : BitVec 4) (i : Instr) (a : AccCtx) : AccCtx :=
  match i with
  | .accInit c' seed [] => if c' = c then AccCtx.fresh (seed64 seed) else a
  | .accReset c' [] => if c' = c then a.restart else a
  | .accWrite c' data => if c' = c then absorb a data else a
  | _ => a

/-- What taking a host event makes of context `c`, which was `a`. -/
def contextAfterEvent (c : BitVec 4) (a : AccCtx) : HostEvent → AccCtx
  | .hardwareReset => AccCtx.fresh 0
  | .transaction t =>
    match decode t with
    | .ok i => contextAfter c i a
    | .error _ => a

theorem contextAfterEvent_ok {t : Transaction} {i : Instr} (hd : decode t = .ok i) (c : BitVec 4) (a : AccCtx) :
    contextAfterEvent c a (.transaction t) = contextAfter c i a := by simp [contextAfterEvent, hd]

theorem contextAfterEvent_error {t : Transaction} {e : Status} (hd : decode t = .error e) (c : BitVec 4) (a : AccCtx) :
    contextAfterEvent c a (.transaction t) = a := by simp [contextAfterEvent, hd]

theorem getElem?_set_context (acc : List AccCtx) (b : AccCtx) {c c' : BitVec 4} (h : c' ≠ c) :
    (acc.set c'.toNat b)[c.toNat]? = acc[c.toNat]? :=
  List.getElem?_set_ne fun heq => h (BitVec.eq_of_toNat_eq heq)

/-- An instruction leaves every context but its own (R238). -/
theorem ContextsAfter.getElem?_of_ne {acc acc' : List AccCtx} {i : Instr} {c : BitVec 4} (h : ContextsAfter acc i acc')
    (hc : contextOf i ≠ some c) : acc'[c.toNat]? = acc[c.toNat]? := by
  cases h with
  | same => rfl
  | init | restart | absorb => exact getElem?_set_context _ _ fun heq => hc (congrArg some heq)

/-- An instruction that is no initialisation, reset or write leaves every context. -/
theorem ContextsAfter.eq_of_no_write {acc acc' : List AccCtx} {i : Instr} (h : ContextsAfter acc i acc')
    (hinit : ∀ c seed, i ≠ .accInit c seed []) (hreset : ∀ c, i ≠ .accReset c []) (hwrite : ∀ c data, i ≠ .accWrite c data) :
    acc' = acc := by
  cases h with
  | same => rfl
  | init => exact absurd rfl (hinit _ _)
  | restart => exact absurd rfl (hreset _)
  | absorb => exact absurd rfl (hwrite _ _)

theorem setContext_acc_self {s : State} {c : BitVec 4} {a : AccCtx} (h : s.acc[c.toNat]? = some a) (b : AccCtx) :
    (s.setContext c b).acc[c.toNat]? = some b := by
  obtain ⟨hlt, -⟩ := List.getElem?_eq_some_iff.mp h
  exact List.getElem?_set_self hlt

theorem exec_accInit_next {s : State} {c : BitVec 4} {a : AccCtx} (h : s.acc[c.toNat]? = some a) (seed : Option Word64) :
    exec (.accInit c seed []) s = .next ((s.setContext c (AccCtx.fresh (seed64 seed))).respond .ok .none) := by
  rw [exec, execAccInit, withContext_some h, withNoData_nil]; rfl

theorem exec_accReset_next {s : State} {c : BitVec 4} {a : AccCtx} (h : s.acc[c.toNat]? = some a) :
    exec (.accReset c []) s = .next ((s.setContext c a.restart).respond .ok .none) := by
  rw [exec, execAccReset, withContext_some h, withNoData_nil]; rfl

/-- What an instruction that goes on leaves in context `c`, if there is one, depends on that context alone. -/
theorem exec_context {i : Instr} {s t : State} (h : exec i s = .next t) (c : BitVec 4) :
    t.acc[c.toNat]? = s.acc[c.toNat]?.map (contextAfter c i) := by
  have hctx := exec_contextsAfter h
  cases ha : s.acc[c.toNat]? with
  | none =>
    rw [List.getElem?_eq_none_iff, ← hctx.length_eq] at ha
    exact List.getElem?_eq_none ha
  | some a =>
    rw [Option.map_some]
    fun_cases contextAfter c i a
    case case1 => rw [exec_accInit_next ha] at h; cases h; exact setContext_acc_self ha _
    case case3 => rw [exec_accReset_next ha] at h; cases h; exact setContext_acc_self ha _
    case case5 data =>
      by_cases hov : OverflowFaults s.cfg a data
      · rw [exec_accWrite_fault ha hov] at h; cases h
      · rw [exec_accWrite_next ha hov] at h; cases h; exact afterWrite_acc_self ha
    case case2 hc | case4 hc | case6 hc => exact (hctx.getElem?_of_ne fun heq => hc (Option.some.inj heq)).trans ha
    case case7 hinit hreset hwrite => rw [hctx.eq_of_no_write hinit hreset hwrite, ha]

/-- A step that goes on takes the oldest event off the queue, and context `c` is as that event leaves it. -/
theorem step_context {s s' : State} {e : HostEvent} {rest : List HostEvent} (hp : s.pending = e :: rest)
    (h : step s = .next s') (c : BitVec 4) :
    s'.pending = rest ∧ s'.acc[c.toNat]? = s.acc[c.toNat]?.map (contextAfterEvent c · e) := by
  cases stepNext_of_step h with
  | idle hidle => rw [hidle] at hp; cases hp
  | reset hreset =>
    rw [hreset] at hp
    cases hp
    exact ⟨rfl, List.getElem?_map⟩
  | illegal htrans _ hd =>
    rw [htrans] at hp
    cases hp
    exact ⟨rfl, by simp [contextAfterEvent_error hd, State.fail_eq]⟩
  | instr htrans _ hd hexec =>
    rw [htrans] at hp
    cases hp
    obtain ⟨_, _, -, -, -, -, hpending⟩ := exec_answers hexec
    exact ⟨hpending, by simpa [contextAfterEvent_ok hd] using exec_context hexec c⟩

/-- Over a run that takes the whole queue, context `c` is as the events leave it one after the other. -/
theorem run_context {s t : State} (h : Host.Core.run core s.pending.length s = .next t) (c : BitVec 4) :
    t.acc[c.toNat]? = s.acc[c.toNat]?.map (s.pending.foldl (contextAfterEvent c)) := by
  generalize hevents : s.pending = events at h ⊢
  induction events generalizing s with
  | nil => cases h; simp
  | cons e rest ih =>
    obtain ⟨u, hstep, hrun⟩ := run_succ_inv h
    obtain ⟨hpending, hacc⟩ := step_context hevents hstep c
    rw [ih hpending hrun, hacc, Option.map_map]
    rfl

/-- What every step keeps, every run keeps. -/
theorem run_keeps {P : State → Prop} (hstep : ∀ s t, P s → step s = .next t → P t) {k : Nat} {s t : State} (hs : P s)
    (h : Host.Core.run core k s = .next t) : P t := by
  induction k generalizing s with
  | zero => cases h; exact hs
  | succ k ih =>
    obtain ⟨u, hu, hrun⟩ := run_succ_inv h
    exact ih (hstep s u hs hu) hrun

/-- A step keeps R36 of the contexts, whatever their number and the parameters. -/
theorem step_keeps_contexts_inv {s t : State} (hs : ∀ a ∈ s.acc, a.Inv) (h : step s = .next t) : ∀ a ∈ t.acc, a.Inv := by
  cases stepNext_of_step h with
  | idle | illegal => exact hs
  | reset =>
    simp only [State.hardwareReset_acc, List.mem_map]
    rintro _ ⟨_, _, rfl⟩
    exact AccCtx.inv_fresh 0
  | instr _ _ _ hexec => exact (exec_contextsAfter hexec).keeps_inv hs

end Sys2Proof.Machine

namespace Sys2Proof

open Machine

/-- Settles O4, by induction on the number of steps. -/
theorem runsKeepContextInvariant : Obligations.RunsKeepContextInvariant := fun _ _ _ _ _ =>
  run_keeps (P := fun s => ∀ a ∈ s.acc, a.Inv) (fun _ _ => step_keeps_contexts_inv) fun _ ha =>
    List.eq_of_mem_replicate ha ▸ AccCtx.inv_fresh 0

end Sys2Proof
end

section
/-! The full history of a context (spec/10_state.md R37). The invariant counts TOTAL modulo 2^64, so that it needs no bound on
the stream while instructions run; R37 is that invariant of a stream shorter than 2^64 bytes. -/

namespace Sys2Proof.Machine

open Sys2Proof.Claims

/-- The context has absorbed the stream `h.2` from the seed `h.1`: whole blocks that are in the lanes, then the tail; TOTAL is
the length modulo 2^64. -/
def AccCtx.Holds (a : AccCtx) (h : Word64 × Bytes) : Prop :=
  a.seed = h.1 ∧ a.tail.length ≤ 15 ∧ a.total = BitVec.ofNat 64 h.2.length ∧
    ∃ (blocks : Bytes) (nb : Nat), h.2 = blocks ++ a.tail ∧ blocks.length = 16 * nb ∧
      a.lanes = blocks128 ⟨h.1, h.1⟩ blocks nb

theorem AccCtx.Absorbed.holds {a : AccCtx} {seed : Word64} {stream : Bytes} (h : a.Absorbed seed stream) :
    a.Holds (seed, stream) := by
  obtain ⟨hseed, htlen, hle, hmod, htail, htotal, hlanes⟩ := h
  rw [slice_to_end] at htail
  have hstream : stream.take (stream.length - a.tail.length) ++ a.tail = stream := by
    have hsplit := List.take_append_drop (stream.length - a.tail.length) stream
    rwa [← htail] at hsplit
  have hblocks : (stream.take (stream.length - a.tail.length)).length =
      16 * ((stream.length - a.tail.length) / 16) := by
    rw [List.length_take]; omega
  refine ⟨hseed, htlen, by simp [← htotal], _, _, hstream.symm, hblocks, ?_⟩
  rw [hlanes, ← blocks128_append_right _ _ a.tail _ hblocks.ge, hstream]

theorem AccCtx.Holds.absorbed {a : AccCtx} {seed : Word64} {stream : Bytes} (h : a.Holds (seed, stream))
    (hlen : stream.length < 2 ^ 64) : a.Absorbed seed stream := by
  obtain ⟨hseed, htlen, htotal, blocks, nb, hstream, hblocks, hlanes⟩ := h
  dsimp only at hseed htotal hstream hlanes
  have hsub : stream.length - a.tail.length = 16 * nb := by simp [hstream, hblocks]
  have hdiv : 16 * nb / 16 = nb := Nat.mul_div_cancel_left nb (by decide)
  refine ⟨hseed, htlen, by simp [hstream], by simp [hsub], ?_, ?_, ?_⟩
  · rw [slice_to_end, hsub, ← hblocks, hstream, List.drop_left]
  · rw [htotal, BitVec.toNat_ofNat, Nat.mod_eq_of_lt hlen]
  · rw [hsub, hdiv, hlanes, hstream, blocks128_append_right _ _ _ _ hblocks.ge]

theorem AccCtx.holds_fresh (seed : Word64) : (AccCtx.fresh seed).Holds (seed, []) :=
  ⟨rfl, Nat.zero_le 15, rfl, [], 0, rfl, rfl, rfl⟩

theorem AccCtx.absorbed_fresh (seed : Word64) : (AccCtx.fresh seed).Absorbed seed [] :=
  (AccCtx.holds_fresh seed).absorbed (by decide)

/-- ABSORB (R232) moves the whole blocks of the old tail and the new bytes into the lanes. -/
theorem AccCtx.Holds.absorb {a : AccCtx} {h : Word64 × Bytes} (ha : a.Holds h) (data : Bytes) :
    (absorb a data).Holds (h.1, h.2 ++ data) := by
  obtain ⟨hseed, -, htotal, blocks, nb, hstream, hblocks, hlanes⟩ := ha
  let buf := a.tail ++ data
  have hmoved : (buf.take (16 * (buf.length / 16))).length = 16 * (buf.length / 16) := by
    rw [List.length_take]; omega
  refine ⟨hseed, ?_, ?_, blocks ++ buf.take (16 * (buf.length / 16)), nb + buf.length / 16, ?_, ?_, ?_⟩
  · rw [absorb_tail_length]; omega
  · rw [absorb_total, htotal, List.length_append, BitVec.ofNat_add]
  · rw [absorb_tail, List.append_assoc, List.take_append_drop, ← List.append_assoc, ← hstream]
  · rw [List.length_append, hmoved, hblocks]; omega
  · rw [blocks128_append _ _ _ _ _ hblocks, ← hlanes,
      ← blocks128_append_right _ _ (buf.drop (16 * (buf.length / 16))) _ hmoved.ge, List.take_append_drop, absorb_lanes]

/-- An instruction takes a context that holds a stream to one that holds the stream the instruction leaves. -/
theorem AccCtx.Holds.contextAfter {a : AccCtx} {h : Word64 × Bytes} (ha : a.Holds h) (c : BitVec 4) (i : Instr) :
    (contextAfter c i a).Holds (history c i h) := by
  fun_cases Machine.contextAfter c i a
  case case1 seed => rw [history, if_pos rfl]; exact AccCtx.holds_fresh _
  case case3 =>
    obtain ⟨hseed, -⟩ := ha
    rw [history, if_pos rfl, ← hseed]
    exact AccCtx.holds_fresh a.seed
  case case5 data => rw [history, if_pos rfl]; exact ha.absorb data
  case case2 hc | case4 hc | case6 hc => rw [history, if_neg hc]; exact ha
  case case7 => rw [history] <;> assumption

theorem AccCtx.Holds.contextAfterEvent {a : AccCtx} {h : Word64 × Bytes} (ha : a.Holds h) (c : BitVec 4) (e : HostEvent) :
    (contextAfterEvent c a e).Holds (eventHistory c h e) := by
  cases e with
  | hardwareReset => exact AccCtx.holds_fresh 0
  | transaction t =>
    simp only [Machine.contextAfterEvent, eventHistory]
    cases decode t with
    | ok i => exact ha.contextAfter c i
    | error => exact ha

theorem AccCtx.Holds.foldl_contextAfterEvent {a : AccCtx} {h : Word64 × Bytes} (ha : a.Holds h) (c : BitVec 4)
    (events : List HostEvent) :
    (events.foldl (Machine.contextAfterEvent c) a).Holds (events.foldl (eventHistory c) h) := by
  induction events generalizing a h with
  | nil => exact ha
  | cons e rest ih => exact ih (ha.contextAfterEvent c e)

end Sys2Proof.Machine

namespace Sys2Proof

open Machine Claims

/-- Settles O5: what is left in the context is a function of the context alone, and that function keeps the history. -/
theorem fullHistoryIsKept : Obligations.FullHistoryIsKept := by
  refine ⟨fun n cfg a ha => ?_, fun s a ha => ?_, fun s c seed hc => ?_, fun s c a ha => ?_,
    fun s t i c a seed stream ha hold hlen h => ?_, fun s s' t c a seed stream ha hold hlen h => ?_⟩
  · exact List.eq_of_mem_replicate ha ▸ AccCtx.absorbed_fresh 0
  · obtain ⟨_, -, rfl⟩ := List.mem_map.mp ha
    exact AccCtx.absorbed_fresh 0
  · have ha := List.getElem?_eq_getElem hc
    exact ⟨_, _, exec_accInit_next ha seed, setContext_acc_self ha _, AccCtx.absorbed_fresh _⟩
  · exact ⟨_, _, exec_accReset_next ha, setContext_acc_self ha _, AccCtx.absorbed_fresh a.seed⟩
  · exact ⟨_, by rw [exec_context h, ha, Option.map_some], (hold.holds.contextAfter c i).absorbed hlen⟩
  · obtain ⟨-, hacc⟩ := step_context (State.present_pending s t) h c
    exact ⟨_, by rw [hacc, State.present_acc, ha, Option.map_some],
      (hold.holds.contextAfterEvent c (.transaction t)).absorbed hlen⟩

/-- Settles O57, by induction on the events, from a fresh context of seed 0. -/
theorem runsKeepFullHistory : Obligations.RunsKeepFullHistory := by
  intro n cfg events c t a hrun ha hlen
  rw [run_context (s := { State.resetWith n cfg with pending := events }) hrun c, Option.map_eq_some_iff] at ha
  obtain ⟨b, hb, rfl⟩ := ha
  obtain rfl : b = AccCtx.fresh 0 := List.eq_of_mem_replicate (List.mem_of_getElem? hb)
  exact ((AccCtx.holds_fresh 0).foldl_contextAfterEvent c events).absorbed hlen

end Sys2Proof
end

section
/-! DATA and values on a port (spec/20_memory.md R66, R76): the number of beats is a rounded-up quotient, and every fact
about the beats follows from when it is at most a given number. -/

namespace Sys2Proof.Machine

theorem beatCount_le_iff {w : Nat} (hw : 0 < w) (data : Bytes) (n : Nat) :
    beatCount w data ≤ n ↔ data.length ≤ w * n :=
  ceilDiv_le_iff_le_mul hw

@[simp] theorem length_beats (w : Nat) (data : Bytes) : (beats w data).length = beatCount w data := by simp [beats]

theorem length_beat (w : Nat) (data : Bytes) (b : Nat) : (beat w data b).length = min w (data.length - b * w) := by
  simp [beat]

/-- Byte lane j of beat b carries `DATA[b*w + j]`. -/
theorem beat_getElem? (data : Bytes) (b : Nat) {w j : Nat} (h : j < w) : (beat w data b)[j]? = data[b * w + j]? := by
  rw [beat, List.getElem?_take_of_lt h, List.getElem?_drop]

/-- The first n beats joined are the first `n * w` bytes. -/
theorem flatten_map_beat (w : Nat) (data : Bytes) (n : Nat) :
    ((List.range n).map (beat w data)).flatten = data.take (n * w) := by
  induction n with
  | zero => simp
  | succ n ih => rw [List.range_succ, List.map_append, List.flatten_append, ih, Nat.succ_mul, List.take_add]; simp [beat]

theorem flatten_beats {w : Nat} (hw : 0 < w) (data : Bytes) : (beats w data).flatten = data := by
  have hcover := (beatCount_le_iff hw data _).mp le_rfl
  rw [beats, flatten_map_beat, List.take_of_length_le (by rwa [Nat.mul_comm])]

/-- A beat with another one behind it is full. -/
theorem length_beat_of_not_last {w : Nat} (hw : 0 < w) {data : Bytes} {b : Nat} (h : b + 1 < beatCount w data) :
    (beat w data b).length = w := by
  have hmore : w * (b + 1) < data.length := Nat.not_le.mp fun hle =>
    Nat.not_le.mpr h ((beatCount_le_iff hw data _).mpr hle)
  rw [length_beat, Nat.mul_comm b, Nat.min_eq_left]
  rw [Nat.mul_succ] at hmore
  omega

/-- The last beat of n + 1 has what n full ones leave: the remainder, or a whole beat when that is 0. -/
theorem length_last_beat {w : Nat} (hw : 0 < w) {data : Bytes} {n : Nat} (h : beatCount w data = n + 1) :
    (beat w data n).length = if data.length % w = 0 then w else data.length % w := by
  have hupper : data.length ≤ w * (n + 1) := (beatCount_le_iff hw data _).mp h.le
  have hlower : w * n < data.length := Nat.not_le.mp fun hle =>
    Nat.not_le.mpr (h ▸ n.lt_succ_self) ((beatCount_le_iff hw data n).mpr hle)
  rw [Nat.mul_succ] at hupper
  obtain ⟨r, hr⟩ := Nat.exists_eq_add_of_lt hlower
  have hrest : data.length - n * w = r + 1 := by rw [Nat.mul_comm n]; omega
  have hmod : data.length % w = (r + 1) % w := by rw [hr, Nat.add_assoc, Nat.mul_add_mod]
  rw [length_beat, hrest, hmod]
  rcases Nat.lt_or_eq_of_le (show r + 1 ≤ w by omega) with hlt | rfl
  · simp [Nat.mod_eq_of_lt hlt, Nat.min_eq_right hlt.le]
  · simp

theorem getLast?_beats {w n : Nat} {data : Bytes} (h : beatCount w data = n + 1) :
    (beats w data).getLast? = some (beat w data n) := by
  rw [beats, h, List.range_succ, List.map_append]
  exact List.getLast?_concat

end Sys2Proof.Machine

namespace Sys2Proof

open Machine

/-- Settles O52, from the number of beats as a rounded-up quotient. -/
theorem beatsCarryData : Obligations.BeatsCarryData := by
  intro w data hw
  refine ⟨flatten_beats hw data, fun b j => beat_getElem? data b, fun b hb => ?_, fun hne => ?_⟩
  · exact length_beat_of_not_last hw (length_beats w data ▸ hb)
  · have hsome : beatCount w data ≠ 0 := fun h0 => hne (by simpa using (beatCount_le_iff hw data 0).mp h0.le)
    obtain ⟨n, hn⟩ := Nat.exists_eq_succ_of_ne_zero hsome
    rw [getLast?_beats hn, Option.map_some, length_last_beat hw hn]

/-- Settles O53: SER128 is the wire form of lanes, and LE undoes LEbytes. -/
theorem wireViewsAgree : Obligations.WireViewsAgree :=
  ⟨fun _ => rfl, fun v => ⟨length_leBytes 4 v, leWord_leBytes 4 v le_rfl⟩⟩

/-- Settles O6, from what a step does with each kind of oldest event. -/
theorem stepTakesTheOldestEvent : Obligations.StepTakesTheOldestEvent :=
  ⟨fun _ _ _ _ => step_head_ok,
    fun _ _ _ e hp hlen hd => ⟨_, step_head_error hp hlen hd, answers_respond _ e .none, rfl, rfl⟩,
    fun _ _ _ => step_head_long, fun _ _ => step_reset, fun _ => step_idle, fun _ _ _ => rfl⟩

end Sys2Proof
end

section
/-! What each command answers (spec/60_exceptions.md R273, spec/30_encoding.md R101) as a function of the state it runs in:
the error of the first check that fails, or the value of its success. -/

namespace Sys2Proof.Machine

open Sys2Proof.Claims

/-- Check 3 of R273, then the checks after it; none when none fails. -/
def checkContext (s : State) (c : BitVec 4) (rest : Option Status) : Option Status :=
  if s.nAcc ≤ c.toNat then some .badCtx else rest

/-- Check 4 of R273, then the checks after it. -/
def checkSeed32 (seed : Option Word64) (rest : Option Status) : Option Status :=
  if (seed.getD 0).extractLsb' 32 32 = 0 then rest else some .seedWidth

/-- Check 5 of R273, then the checks after it. -/
def checkNoData (data : Bytes) (rest : Option Status) : Option Status :=
  if data.length = 0 then rest else some .badOperand

/-- Check 6 of R273, then the checks after it. -/
def checkDigest (s : State) (rest : Option Status) : Option Status := if s.dig = none then some .noDigest else rest

/-- Check 7 of R273, then the checks after it. -/
def checkBuffer (data : Bytes) (rest : Option Status) : Option Status :=
  if data.length < 16 then some .shortBuf else rest

/-- The first of checks 3 to 7 that an instruction fails. -/
def firstError (s : State) : Instr → Option Status
  | .hash32 seed _ => checkSeed32 seed none
  | .hash128 _ _ => none
  | .digLanes data | .digBytes data => checkNoData data (checkDigest s none)
  | .digPut data => checkDigest s (checkBuffer data none)
  | .accInit c _ data | .accReset c data | .accSum128 c data => checkContext s c (checkNoData data none)
  | .accWrite c _ | .accSum c _ => checkContext s c none
  | .rdStatus data => checkNoData data none

/-- The value an instruction answers with when no check fails (R101). -/
def successValue (s : State) : Instr → Value
  | .hash32 seed data => .u32 (hash32Fn data (seed32 seed))
  | .hash128 seed data => .lanes (hash128Fn data (seed64 seed))
  | .digLanes _ => s.dig.elim .none .lanes
  | .digBytes _ => s.dig.elim .none fun l => .bytes (ser128 l)
  | .digPut data => s.dig.elim .none fun l => .bytes (ser128 l ++ slice data 16 data.length)
  | .accInit _ _ _ | .accReset _ _ | .accWrite _ _ => .none
  | .accSum c data => s.acc[c.toNat]?.elim .none fun a => .bytes (data ++ ser128 (accDigest a))
  | .accSum128 c _ => s.acc[c.toNat]?.elim .none fun a => .lanes (accDigest a)
  | .rdStatus _ => .u32 s.statusReg

/-- The instruction is a write that TOTAL_OVERFLOW = fault stops (R233). -/
def StopsAtOverflow (s : State) : Instr → Prop
  | .accWrite c data => ∃ a, s.acc[c.toNat]? = some a ∧ OverflowFaults s.cfg a data
  | _ => False

/-- A result that checks decide: the first error, else success with a value, or the stop at an overflow. -/
inductive Checked (s : State) (v : Value) (stops : Prop) : Option Status → Result → Prop
  | error (e : Status) : Checked s v stops (some e) (raise s e)
  | success {t : State} (h : Succeeds s t v) : Checked s v stops none (.next t)
  | overflow (h : stops) : Checked s v stops none (.fault .totalOverflow)

section checked

variable {s : State} {v : Value} {stops : Prop} {e : Option Status}

theorem succeeds_respond (s : State) (v : Value) : Succeeds s (s.respond .ok v) v := ⟨answers_respond s .ok v, rfl⟩

theorem checked_complete : Checked s v stops none (complete s v) := .success (succeeds_respond s v)

theorem checked_complete_setContext (c : BitVec 4) (a : AccCtx) :
    Checked s v stops none (complete (s.setContext c a) v) :=
  .success (succeeds_respond (s.setContext c a) v)

theorem checked_complete_setDigest (l : Lanes) : Checked s v stops none (complete (s.setDigest l) v) :=
  .success (succeeds_respond (s.setDigest l) v)

theorem checked_withContext {c : BitVec 4} {k : AccCtx → Result}
    (hk : ∀ a, s.acc[c.toNat]? = some a → Checked s v stops e (k a)) :
    Checked s v stops (checkContext s c e) (withContext s c k) := by
  cases h : s.acc[c.toNat]? with
  | none =>
    have habsent : s.nAcc ≤ c.toNat := List.getElem?_eq_none_iff.mp h
    rw [withContext_none h, checkContext, if_pos habsent]
    exact .error _
  | some a =>
    obtain ⟨hlt, -⟩ := List.getElem?_eq_some_iff.mp h
    have hthere : ¬ s.nAcc ≤ c.toNat := Nat.not_le.mpr hlt
    rw [withContext_some h, checkContext, if_neg hthere]
    exact hk a h

theorem checked_withSeed32 {seed : Option Word64} {k : Word32 → Result} (hk : Checked s v stops e (k (seed32 seed))) :
    Checked s v stops (checkSeed32 seed e) (withSeed32 s seed k) := by
  unfold withSeed32 checkSeed32; split
  · exact hk
  · exact .error _

theorem checked_withNoData {data : Bytes} {k : Result} (hk : Checked s v stops e k) :
    Checked s v stops (checkNoData data e) (withNoData s data k) := by
  unfold withNoData checkNoData; split
  · exact hk
  · exact .error _

theorem checked_withDigest {k : Lanes → Result} (hk : ∀ l, s.dig = some l → Checked s v stops e (k l)) :
    Checked s v stops (checkDigest s e) (withDigest s k) := by
  cases h : s.dig with
  | none => rw [withDigest_none h, checkDigest, if_pos h]; exact .error _
  | some l => rw [withDigest_some h, checkDigest, if_neg (by simp [h])]; exact hk l h

theorem checked_withBuffer {data : Bytes} {k : Result} (hk : Checked s v stops e k) :
    Checked s v stops (checkBuffer data e) (withBuffer s data k) := by
  unfold withBuffer checkBuffer; split
  · exact .error _
  · exact hk

end checked

/-- Every instruction ends as its checks decide (R273). -/
theorem exec_checked (i : Instr) (s : State) :
    Checked s (successValue s i) (StopsAtOverflow s i) (firstError s i) (exec i s) := by
  cases i <;> simp only [exec, firstError]
  case hash32 => exact checked_withSeed32 checked_complete
  case hash128 => exact checked_complete_setDigest _
  case digLanes | digBytes =>
    refine checked_withNoData (checked_withDigest fun l hl => ?_)
    rw [successValue, hl]
    exact checked_complete
  case digPut =>
    refine checked_withDigest fun l hl => checked_withBuffer ?_
    rw [successValue, hl]
    exact checked_complete
  case accInit c _ _ | accReset c _ =>
    exact checked_withContext fun _ _ => checked_withNoData (checked_complete_setContext c _)
  case accWrite c _ =>
    refine checked_withContext fun a ha => ?_
    split
    · next hov => exact .overflow ⟨a, ha, hov⟩
    · exact checked_complete_setContext c _
  case accSum =>
    refine checked_withContext fun a ha => ?_
    rw [successValue, ha]
    exact checked_complete
  case accSum128 =>
    refine checked_withContext fun a ha => checked_withNoData ?_
    rw [successValue, ha]
    exact checked_complete_setDigest _
  case rdStatus => exact checked_withNoData checked_complete

theorem exec_next_of_not_stops {i : Instr} {s : State} (h : ¬ StopsAtOverflow s i) : ∃ t, exec i s = .next t := by
  cases hr : exec i s with
  | next t => exact ⟨t, rfl⟩
  | fault | refused =>
    have hchecked := exec_checked i s
    generalize firstError s i = e at hchecked
    rw [hr] at hchecked
    cases hchecked <;> contradiction

/-- The one response of an instruction that goes on. -/
def responseOf (s : State) (i : Instr) : Response :=
  match firstError s i with
  | some e => ⟨e, .none⟩
  | none => ⟨.ok, successValue s i⟩

theorem responseOf_status (s : State) (i : Instr) : (responseOf s i).status = (firstError s i).getD .ok := by
  unfold responseOf
  cases firstError s i <;> rfl

theorem exec_answers_responseOf {i : Instr} {s t : State} (h : exec i s = .next t) :
    Answers s t (responseOf s i).status (responseOf s i).value := by
  have hchecked := exec_checked i s
  unfold responseOf
  generalize firstError s i = e at hchecked
  rw [h] at hchecked
  cases hchecked with
  | error e => exact answers_respond s e .none
  | success hs =>
    obtain ⟨hans, -⟩ := hs
    exact hans

end Sys2Proof.Machine
end

section
/-! A command issued again (spec/20_memory.md R70). -/

namespace Sys2Proof.Machine

open Sys2Proof.Claims

theorem last_response_of_answers {s t : State} {st : Status} {v : Value} (h : Answers s t st v) :
    t.responses.getLast? = some ⟨st, v⟩ := by
  obtain ⟨hresp, -⟩ := h
  rw [hresp, List.getLast?_concat]

theorem exec_keeps_dig {i : Instr} {s t : State} (h : exec i s = .next t) (hhash : ∀ seed data, i ≠ .hash128 seed data)
    (hsum : ∀ c : BitVec 4, c.toNat < s.nAcc → i ≠ .accSum128 c []) : t.dig = s.dig :=
  ensures_dig_unchanged hhash hsum t h

/-- What a command answers depends on nothing that it writes itself, but for RD_STATUS. -/
theorem responseOf_again {i : Instr} {s t : State} (hread : ∀ data, i ≠ .rdStatus data) (h : exec i s = .next t) :
    responseOf t i = responseOf s i := by
  have hctx := exec_contextsAfter h
  have hn : t.nAcc = s.nAcc := hctx.length_eq
  cases i
  case hash32 | hash128 => rfl
  case digLanes | digBytes | digPut =>
    have hdig : t.dig = s.dig := exec_keeps_dig h nofun fun _ _ => nofun
    simp only [responseOf, firstError, successValue, checkDigest, hdig]
  case accInit | accReset | accWrite => simp only [responseOf, firstError, successValue, checkContext, hn]
  case accSum | accSum128 =>
    have hacc : t.acc = s.acc := hctx.eq_of_no_write nofun nofun nofun
    simp only [responseOf, firstError, successValue, checkContext, hn, hacc]
  case rdStatus data => exact absurd rfl (hread data)

end Sys2Proof.Machine

namespace Sys2Proof

open Machine

/-- Settles O48: what a command answers depends on nothing that it writes itself, a query writes no context and a view no DIG
either. -/
theorem repeatedReads : Obligations.RepeatedReads := by
  refine ⟨fun i s t t' hread h h' => ?_, fun s t c data h => ?_, fun s t data h => ?_, fun i s t hi _ => ?_,
    fun s => ⟨_, exec_rdStatus_next s, rfl, rfl⟩⟩
  · rw [last_response_of_answers (exec_answers_responseOf h), last_response_of_answers (exec_answers_responseOf h'),
      responseOf_again hread h]
  · rcases h with h | h <;> exact (exec_contextsAfter h).eq_of_no_write nofun nofun nofun
  · rcases h with h | h | h | h <;>
      exact ⟨exec_keeps_dig h nofun fun _ _ => nofun, (exec_contextsAfter h).eq_of_no_write nofun nofun nofun⟩
  · obtain ⟨c, data, rfl | rfl | rfl | rfl | rfl⟩ := hi <;> exact exec_next_of_not_stops nofun

end Sys2Proof
end

section
/-! R273's check on a transaction: checks 1 and 2 are the decoder's, checks 3 to 7 those of the decoded instruction. And the
queue under TOTAL_OVERFLOW = wrap, where nothing stops (spec/20_memory.md R72, spec/70_reset_and_hazards.md R310). -/

namespace Sys2Proof.Machine

open Sys2Proof.Claims

theorem table_eq_map_all : table = Opcode.all.map fun op => (op.code, op.cmdMatch, op.cmdMask) := rfl

theorem mem_table_opcodes {b : BitVec 8} : b ∈ table.map (·.1) ↔ ∃ op : Opcode, op.code = b := by
  simp [table_eq_map_all, Opcode.mem_all]

/-- A word selects no row of its OPC exactly when it does not select the one row that has it. -/
theorem table_selects_none_iff (op : Opcode) (w : Word32) :
    (∀ row ∈ table, row.1 = op.code → w &&& row.2.2 ≠ row.2.1) ↔ op.selectedBy w = false := by
  simp only [table_eq_map_all, List.forall_mem_map, Opcode.selectedBy, beq_eq_false_iff_ne]
  exact ⟨fun h => h op op.mem_all rfl, fun h op' _ hcode => Opcode.code_injective hcode ▸ h⟩

theorem check_of_decode_error {t : Transaction} {e : Status} (h : decode t = .error e) (s : State) :
    check s t = some e := by
  unfold decode at h
  split at h
  · next hnone =>
    cases h
    have hop : cmdOpc t.cmd ∉ table.map (·.1) := by
      rw [mem_table_opcodes]
      exact fun ⟨op, hcode⟩ => Opcode.ofCode_eq_none.mp hnone op hcode
    exact if_pos hop
  · next op hsome =>
    have hcode := Opcode.ofCode_eq_some.mp hsome
    split at h
    · cases h
    · next hsel =>
      cases h
      have hop : cmdOpc t.cmd ∈ table.map (·.1) := mem_table_opcodes.mpr ⟨op, hcode⟩
      have hrow := (table_selects_none_iff op t.cmd).mpr (by simpa using hsel)
      rw [hcode] at hrow
      exact (if_neg (not_not_intro hop)).trans (if_pos hrow)

theorem decode_ok_inv {t : Transaction} {i : Instr} (h : decode t = .ok i) :
    ∃ op : Opcode, op.code = cmdOpc t.cmd ∧ op.selectedBy t.cmd = true ∧ i = decodeOperands op t := by
  unfold decode at h
  split at h
  · cases h
  · next op hsome =>
    split at h
    · next hsel => cases h; exact ⟨op, Opcode.ofCode_eq_some.mp hsome, hsel, rfl⟩
    · cases h

/-- Check 4 reads OPND only where SEEDSEL = 1 (R94, R95). -/
theorem checkSeed32_seedOf (t : Transaction) :
    checkSeed32 (seedOf t) none =
      if t.cmd.getLsbD 12 = true ∧ t.opnd.extractLsb' 32 32 ≠ 0 then some .seedWidth else none := by
  unfold checkSeed32 seedOf cmdSeedSel
  cases t.cmd.getLsbD 12
  · simp
  · by_cases h : t.opnd.extractLsb' 32 32 = 0 <;> simp [h]

theorem check_of_decode_ok {t : Transaction} {i : Instr} (h : decode t = .ok i) (s : State) :
    check s t = firstError s i := by
  obtain ⟨op, hcode, hsel, rfl⟩ := decode_ok_inv h
  have hopc : t.cmd.extractLsb' 0 8 = op.code := hcode.symm
  have hop : op.code ∈ table.map (·.1) := mem_table_opcodes.mpr ⟨op, rfl⟩
  have hrow : ¬ ∀ row ∈ table, row.1 = op.code → t.cmd &&& row.2.2 ≠ row.2.1 := by
    rw [table_selects_none_iff, hsel]; decide
  simp only [check, hopc, hop, hrow, not_true_eq_false, if_false]
  cases op <;> simp only [decodeOperands, firstError, Opcode.code]
  case hash32 => simp [checkSeed32_seedOf]
  case hash128 => simp
  case digLanes | digBytes => simp [checkNoData, checkDigest]
  case digPut => simp [checkDigest, checkBuffer]
  case accInit | accReset | accSum128 => simp [checkContext, checkNoData, cmdCtx]
  case accWrite | accSum => exact if_congr (by simp [cmdCtx]) rfl (by simp)
  case rdStatus => simp [checkNoData]

theorem exec_next_of_wrap {s : State} (h : s.cfg.totalOverflow = .wrap) (i : Instr) : ∃ t, exec i s = .next t := by
  refine exec_next_of_not_stops fun hstop => ?_
  unfold StopsAtOverflow at hstop
  split at hstop
  · obtain ⟨_, _, hfault, _⟩ := hstop
    rw [h] at hfault
    cases hfault
  · exact hstop

/-- Under wrap, a step takes a presentable transaction and answers it with the status that R273's check gives. -/
theorem step_head_answers_check {s : State} {t : Transaction} {rest : List HostEvent}
    (hp : s.pending = .transaction t :: rest) (hwrap : s.cfg.totalOverflow = .wrap)
    (hlen : t.data.length ≤ s.cfg.maxPayload) :
    ∃ s' v, step s = .next s' ∧ Answers { s with pending := rest } s' ((check s t).getD .ok) v := by
  cases hd : decode t with
  | error e =>
    rw [check_of_decode_error hd]
    exact ⟨_, _, step_head_error hp hlen hd, answers_respond _ e .none⟩
  | ok i =>
    obtain ⟨s', hexec⟩ := exec_next_of_wrap (s := { s with pending := rest }) hwrap i
    have hans := exec_answers_responseOf hexec
    rw [responseOf_status, ← check_of_decode_ok hd] at hans
    exact ⟨s', _, (step_head_ok hp hlen hd).trans hexec, hans⟩

end Sys2Proof.Machine

namespace Sys2Proof

open Machine Claims

/-- Settles O54, by induction on the transactions: each is taken by one step, which answers as R273's check says. -/
theorem queueAnsweredInOrder : Obligations.QueueAnsweredInOrder := by
  intro ts rest s hp hwrap hlen
  induction ts generalizing s with
  | nil => exact ⟨s, [], rfl, hp, (List.append_nil _).symm, rfl, nofun⟩
  | cons t ts ih =>
    obtain ⟨s', v, hstep, hans⟩ := step_head_answers_check hp hwrap (hlen t List.mem_cons_self)
    have hlast := last_response_of_answers hans
    obtain ⟨hresp, -, -, hcfg, hpending⟩ := hans
    have hlen' : ∀ t' ∈ ts, t'.data.length ≤ s'.cfg.maxPayload := fun t' ht' =>
      hcfg ▸ hlen t' (List.mem_cons_of_mem t ht')
    obtain ⟨s'', rs, hrun, hrest, hresps, hrs, hkth⟩ := ih s' hpending (hcfg ▸ hwrap) hlen'
    refine ⟨s'', ⟨(check s t).getD .ok, v⟩ :: rs, (run_succ_next hstep).trans hrun, hrest, ?_, congrArg (· + 1) hrs,
      fun k hk => ?_⟩
    · rw [hresps, hresp, List.append_assoc, List.singleton_append]
    · cases k with
      | zero => exact ⟨s, s', rfl, hstep, hlast, congrArg (Option.map (·.status)) hlast⟩
      | succ k =>
        obtain ⟨u, u', hu, hrestk⟩ := hkth k (Nat.lt_of_succ_lt_succ hk)
        exact ⟨u, u', (run_succ_next hstep).trans hu, hrestk⟩

end Sys2Proof
end

section
/-! The command word by its fields (spec/30_encoding.md R91, R98, R99): which words select a row, what the decoder and the
encoder make of them, and that the two are inverse to each other. -/

namespace Sys2Proof

/-- RSVD, bits 31:13 (R91). -/
def cmdRsvd (w : Word32) : BitVec 19 := w.extractLsb' 13 19

/-- The row of R99 admits any CTX. -/
def Opcode.takesContext : Opcode → Bool
  | .accInit | .accReset | .accWrite | .accSum | .accSum128 => true
  | .hash32 | .hash128 | .digLanes | .digBytes | .digPut | .rdStatus => false

/-- The row of R99 admits any SEEDSEL. -/
def Opcode.takesSeed : Opcode → Bool
  | .hash32 | .hash128 | .accInit => true
  | .digLanes | .digBytes | .digPut | .accReset | .accWrite | .accSum | .accSum128 | .rdStatus => false

/-! ### A word is its four fields -/

theorem word_eq_iff_fields {v w : Word32} :
    v = w ↔ cmdOpc v = cmdOpc w ∧ cmdCtx v = cmdCtx w ∧ cmdSeedSel v = cmdSeedSel w ∧ cmdRsvd v = cmdRsvd w := by
  refine ⟨fun h => h ▸ ⟨rfl, rfl, rfl, rfl⟩, fun ⟨hopc, hctx, hsel, hrsvd⟩ => BitVec.eq_of_getLsbD_eq fun j hj => ?_⟩
  have field {start len : Nat} (h : v.extractLsb' start len = w.extractLsb' start len) (hlo : start ≤ j)
      (hhi : j < start + len) : v.getLsbD j = w.getLsbD j := by
    have hbit := congrArg (BitVec.getLsbD · (j - start)) h
    simpa [Nat.sub_lt_left_of_lt_add hlo hhi, Nat.add_sub_cancel' hlo] using hbit
  rcases (by omega : j < 8 ∨ 8 ≤ j ∧ j < 12 ∨ j = 12 ∨ 13 ≤ j) with h | ⟨hlo, hhi⟩ | rfl | h
  · exact field hopc (Nat.zero_le j) (by omega)
  · exact field hctx hlo hhi
  · exact hsel
  · exact field hrsvd h hj

section fields

variable (v w : Word32)

@[simp] theorem cmdOpc_and : cmdOpc (v &&& w) = cmdOpc v &&& cmdOpc w := BitVec.extractLsb'_and ..
@[simp] theorem cmdCtx_and : cmdCtx (v &&& w) = cmdCtx v &&& cmdCtx w := BitVec.extractLsb'_and ..
@[simp] theorem cmdSeedSel_and : cmdSeedSel (v &&& w) = (cmdSeedSel v && cmdSeedSel w) := BitVec.getLsbD_and ..
@[simp] theorem cmdRsvd_and : cmdRsvd (v &&& w) = cmdRsvd v &&& cmdRsvd w := BitVec.extractLsb'_and ..

@[simp] theorem cmdOpc_or : cmdOpc (v ||| w) = cmdOpc v ||| cmdOpc w := BitVec.extractLsb'_or ..
@[simp] theorem cmdCtx_or : cmdCtx (v ||| w) = cmdCtx v ||| cmdCtx w := BitVec.extractLsb'_or ..
@[simp] theorem cmdSeedSel_or : cmdSeedSel (v ||| w) = (cmdSeedSel v || cmdSeedSel w) := BitVec.getLsbD_or ..
@[simp] theorem cmdRsvd_or : cmdRsvd (v ||| w) = cmdRsvd v ||| cmdRsvd w := BitVec.extractLsb'_or ..

end fields

section rows

variable (op : Opcode)

/-- A match word has the row's OPC and no other field set (R99). -/
theorem Opcode.match_fields : cmdOpc op.cmdMatch = op.code ∧ cmdCtx op.cmdMatch = 0 ∧ cmdSeedSel op.cmdMatch = false ∧
    cmdRsvd op.cmdMatch = 0 := by cases op <;> decide

/-- A mask holds every bit of a word but those of a field that may have any value (R99). -/
theorem Opcode.mask_fields : cmdOpc op.cmdMask = BitVec.allOnes 8 ∧
    cmdCtx op.cmdMask = (if op.takesContext then 0 else BitVec.allOnes 4) ∧ cmdSeedSel op.cmdMask = !op.takesSeed ∧
    cmdRsvd op.cmdMask = BitVec.allOnes 19 := by cases op <;> decide

/-- R99's match and mask, field by field (R91, R92, R98). -/
theorem Opcode.selectedBy_iff_fields (w : Word32) :
    op.selectedBy w = true ↔ cmdOpc w = op.code ∧ (op.takesContext = false → cmdCtx w = 0) ∧
      (op.takesSeed = false → cmdSeedSel w = false) ∧ cmdRsvd w = 0 := by
  obtain ⟨hopc, hctx, hsel, hrsvd⟩ := op.match_fields
  obtain ⟨hopc', hctx', hsel', hrsvd'⟩ := op.mask_fields
  rw [Opcode.selectedBy, beq_iff_eq, word_eq_iff_fields, cmdOpc_and, cmdCtx_and, cmdSeedSel_and, cmdRsvd_and, hopc, hctx,
    hsel, hrsvd, hopc', hctx', hsel', hrsvd', BitVec.and_allOnes, BitVec.and_allOnes]
  cases op.takesContext <;> cases op.takesSeed <;> simp [-BitVec.reduceAllOnes]

end rows

/-- The word that the encoder writes has the fields it is given. -/
theorem commandWord_fields (op : Opcode) (ctx : BitVec 4) (sel : Bool) :
    cmdOpc (commandWord op ctx sel) = op.code ∧ cmdCtx (commandWord op ctx sel) = ctx ∧
      cmdSeedSel (commandWord op ctx sel) = sel ∧ cmdRsvd (commandWord op ctx sel) = 0 := by
  have hbits : ∀ (ctx : BitVec 4) (sel : Bool),
      let v : Word32 := (ctx.setWidth 32 <<< 8) ||| ((BitVec.ofBool sel).setWidth 32 <<< 12)
      cmdOpc v = 0 ∧ cmdCtx v = ctx ∧ cmdSeedSel v = sel ∧ cmdRsvd v = 0 := by decide
  obtain ⟨hopc, hctx, hsel, hrsvd⟩ := op.match_fields
  obtain ⟨hopc', hctx', hsel', hrsvd'⟩ := hbits ctx sel
  rw [commandWord, BitVec.or_assoc, cmdOpc_or, cmdCtx_or, cmdSeedSel_or, cmdRsvd_or, hopc, hctx, hsel, hrsvd, hopc', hctx',
    hsel', hrsvd']
  simp

/-- A word that selects a row is what the encoder writes from its fields. -/
theorem commandWord_of_selectedBy {op : Opcode} {w : Word32} (h : op.selectedBy w = true) :
    commandWord op (cmdCtx w) (cmdSeedSel w) = w := by
  obtain ⟨hopc, -, -, hrsvd⟩ := (op.selectedBy_iff_fields w).mp h
  obtain ⟨hopc', hctx', hsel', hrsvd'⟩ := commandWord_fields op (cmdCtx w) (cmdSeedSel w)
  exact word_eq_iff_fields.mpr ⟨hopc'.trans hopc.symm, hctx', hsel', hrsvd'.trans hrsvd.symm⟩

/-! ### The decoder -/

theorem decode_of_selectedBy {op : Opcode} {t : Transaction} (h : op.selectedBy t.cmd = true) :
    decode t = .ok (decodeOperands op t) := by
  obtain ⟨hopc, -⟩ := (op.selectedBy_iff_fields t.cmd).mp h
  simp [decode, hopc, Opcode.ofCode_code, h]

theorem decode_of_reserved {op : Opcode} {t : Transaction} (hopc : op.code = cmdOpc t.cmd)
    (h : op.selectedBy t.cmd = false) : decode t = .error .reservedBits := by
  simp [decode, ← hopc, Opcode.ofCode_code, h]

theorem decode_of_unassigned {t : Transaction} (h : ∀ op : Opcode, op.code ≠ cmdOpc t.cmd) :
    decode t = .error .illegalOpc := by
  simp [decode, Opcode.ofCode_eq_none.mpr h]

theorem seedOf_eq_none {t : Transaction} (h : cmdSeedSel t.cmd = false) : seedOf t = none := by simp [seedOf, h]

/-! ### Decode and encode -/

section seeded

variable (op : Opcode) (ctx : BitVec 4) (seed : Option Word64) (data : Bytes)

@[simp] theorem seededTransaction_cmdCtx : cmdCtx (seededTransaction op ctx seed data).cmd = ctx := by
  obtain ⟨-, hctx, -, -⟩ := commandWord_fields op ctx seed.isSome
  exact hctx

@[simp] theorem seededTransaction_data : (seededTransaction op ctx seed data).data = data := rfl

@[simp] theorem seedOf_seededTransaction : seedOf (seededTransaction op ctx seed data) = seed := by
  obtain ⟨-, -, hsel, -⟩ := commandWord_fields op ctx seed.isSome
  rw [seedOf, seededTransaction, hsel]
  cases seed <;> rfl

end seeded

/-- The encoder writes a word of the instruction's own row (R99). -/
theorem selectedBy_encode (i : Instr) : i.opcode.selectedBy (encode i).cmd = true :=
  match i with
  | .hash32 seed data => Laws.EncodedWord.hash32 seed data
  | .hash128 seed data => Laws.EncodedWord.hash128 seed data
  | .digLanes data => Laws.EncodedWord.digLanes data
  | .digBytes data => Laws.EncodedWord.digBytes data
  | .digPut data => Laws.EncodedWord.digPut data
  | .accInit ctx seed data => Laws.EncodedWord.accInit ctx seed data
  | .accReset ctx data => Laws.EncodedWord.accReset ctx data
  | .accWrite ctx data => Laws.EncodedWord.accWrite ctx data
  | .accSum ctx data => Laws.EncodedWord.accSum ctx data
  | .accSum128 ctx data => Laws.EncodedWord.accSum128 ctx data
  | .rdStatus data => Laws.EncodedWord.rdStatus data

/-- The decoder reads back every operand that the encoder wrote. -/
theorem decodeOperands_encode (i : Instr) : decodeOperands i.opcode (encode i) = i := by
  cases i <;> simp only [Instr.opcode, encode, decodeOperands, seededTransaction_cmdCtx, seededTransaction_data,
    seedOf_seededTransaction]

/-- Settles O11: the encoder's word selects the instruction's row, and each operand is read back. -/
theorem decodeOfEncode : Obligations.DecodeOfEncode := fun i => by
  rw [decode_of_selectedBy (selectedBy_encode i), decodeOperands_encode]

/-- The transaction without an OPND that is not read (R95). -/
theorem seededTransaction_seedOf {op : Opcode} {t : Transaction} (h : op.selectedBy t.cmd = true) :
    seededTransaction op (cmdCtx t.cmd) (seedOf t) t.data = { t with opnd := if cmdSeedSel t.cmd then t.opnd else 0 } := by
  have hcmd := commandWord_of_selectedBy h
  unfold seededTransaction seedOf
  cases hsel : cmdSeedSel t.cmd <;> rw [hsel] at hcmd <;> simp [hcmd]

/-- What decodes in a row is encoded in it again: a row that admits no CTX or no SEEDSEL has it zero (R98). -/
theorem encode_decodeOperands {op : Opcode} {t : Transaction} (h : op.selectedBy t.cmd = true) :
    encode (decodeOperands op t) = seededTransaction op (cmdCtx t.cmd) (seedOf t) t.data := by
  obtain ⟨-, hctx, hsel, -⟩ := (op.selectedBy_iff_fields t.cmd).mp h
  have hseed (hno : op.takesSeed = false) : seedOf t = none := seedOf_eq_none (hsel hno)
  cases op <;> simp only [decodeOperands, encode]
  case hash32 | hash128 => rw [hctx rfl]
  case accReset | accWrite | accSum | accSum128 => rw [hseed rfl]
  case digLanes | digBytes | digPut | rdStatus => rw [hctx rfl, hseed rfl]

/-- Settles O12: what decodes in a row is encoded in it again. -/
theorem encodeOfDecode : Obligations.EncodeOfDecode := by
  intro t i h
  obtain ⟨op, -, hsel, rfl⟩ := Machine.decode_ok_inv h
  exact (encode_decodeOperands hsel).trans (seededTransaction_seedOf hsel)

end Sys2Proof
end

section
/-! What a step makes of a command word (spec/30_encoding.md R95, R97 to R99), and the seed of a command (R94). -/

namespace Sys2Proof.Machine

open Sys2Proof.Claims

theorem step_present_fails {s : State} {t : Transaction} {e : Status} (hlen : t.data.length ≤ s.cfg.maxPayload)
    (hd : decode t = .error e) : ∃ s', step (s.present t) = .next s' ∧ Fails s s' e :=
  ⟨_, step_present_error hlen hd, answers_respond s e .none, rfl, rfl⟩

/-- A step sees no more of a transaction than what it decodes to and the length of its DATA. -/
theorem step_present_congr (s : State) {t t' : Transaction} (hd : decode t = decode t')
    (hlen : t.data.length = t'.data.length) : step (s.present t) = step (s.present t') := by
  simp only [step_present, takeTransaction, Presentable, hd, hlen]

/-- The decoder reads OPND as the seed only (R94). -/
theorem decode_congr {t t' : Transaction} (hcmd : t.cmd = t'.cmd) (hseed : seedOf t = seedOf t') (hdata : t.data = t'.data) :
    decode t = decode t' := by
  have hops (op : Opcode) : decodeOperands op t = decodeOperands op t' := by
    cases op <;> simp only [decodeOperands, hcmd, hseed, hdata]
  simp only [decode, hcmd, hops]

/-- The assigned opcodes as ranges of numbers (R92, R97). -/
theorem exists_code_iff_toNat (b : BitVec 8) :
    (∃ op : Opcode, op.code = b) ↔ (b.toNat = 0x01 ∨ b.toNat = 0x02 ∨ (0x08 ≤ b.toNat ∧ b.toNat ≤ 0x0A) ∨
      (0x10 ≤ b.toNat ∧ b.toNat ≤ 0x14) ∨ b.toNat = 0x30) := by
  rw [← mem_table_opcodes]
  simp only [table, List.map_cons, List.map_nil, List.mem_cons, List.not_mem_nil, or_false, BitVec.toNat_eq,
    BitVec.reduceToNat]
  omega

/-- A property of every row of R99's table is one of every row of the decoder's. -/
theorem forall_mem_table {P : BitVec 8 × Word32 × Word32 → Prop} :
    (∀ row ∈ table, P row) ↔ ∀ op : Opcode, P (op.code, op.cmdMatch, op.cmdMask) := by
  simp [table_eq_map_all, Opcode.mem_all]

@[simp] theorem opcodeOf_decodeOperands (op : Opcode) (t : Transaction) : opcodeOf (decodeOperands op t) = op.code := by
  cases op <;> rfl

/-- A word selects a row exactly when it decodes to an instruction of it (R99). -/
theorem selectedBy_iff_decode (op : Opcode) (t : Transaction) :
    op.selectedBy t.cmd = true ↔ ∃ i, decode t = .ok i ∧ opcodeOf i = op.code := by
  constructor
  · exact fun h => ⟨_, decode_of_selectedBy h, opcodeOf_decodeOperands op t⟩
  · rintro ⟨i, hd, hcode⟩
    obtain ⟨op', -, hsel, rfl⟩ := decode_ok_inv hd
    rwa [← Opcode.code_injective ((opcodeOf_decodeOperands op' t).symm.trans hcode)]

/-- A word that selects no row is rejected by whether its OPC is assigned (R97, R98). -/
theorem decode_of_selects_none {t : Transaction} (h : ∀ op : Opcode, op.selectedBy t.cmd = false) :
    decode t = .error (if cmdOpc t.cmd ∈ table.map (·.1) then .reservedBits else .illegalOpc) := by
  split
  · next hassigned =>
    obtain ⟨op, hcode⟩ := mem_table_opcodes.mp hassigned
    exact decode_of_reserved hcode (h op)
  · next hunassigned => exact decode_of_unassigned fun op hcode => hunassigned (mem_table_opcodes.mpr ⟨op, hcode⟩)

end Sys2Proof.Machine

namespace Sys2Proof

open Machine Claims

/-- Settles O7: no row has an unassigned OPC, and none is selected by a word with a reserved bit set. -/
theorem illegalWordsAreAnswered : Obligations.IllegalWordsAreAnswered := by
  intro s t hlen
  have hassigned := exists_code_iff_toNat (cmdOpc t.cmd)
  refine ⟨fun hop => step_present_fails hlen (decode_of_unassigned fun op hcode => ?_), fun hop hrsvd => ?_⟩
  · have hrange := hassigned.mp ⟨op, hcode⟩
    unfold cmdOpc at hrange
    omega
  · obtain ⟨op, hcode⟩ := hassigned.mpr hop
    have hsel : ¬ op.selectedBy t.cmd = true := fun hsel => by
      obtain ⟨-, -, -, hzero⟩ := (op.selectedBy_iff_fields t.cmd).mp hsel
      exact hrsvd hzero
    exact step_present_fails hlen (decode_of_reserved hcode (by simpa using hsel))

/-- Settles O8, row by row. -/
theorem commandWordSelection : Obligations.CommandWordSelection := by
  refine fun t => ⟨forall_mem_table.mpr fun op => ?_, fun hnone => ?_⟩
  · rw [← selectedBy_iff_decode, Opcode.selectedBy, beq_iff_eq]
  · have hd := decode_of_selects_none fun op => beq_false_of_ne (forall_mem_table.mp hnone op)
    exact ⟨hd, fun s hlen => step_present_fails hlen hd⟩

/-- Settles O14: with SEEDSEL = 0 both transactions decode alike. -/
theorem unreadOperandIsIgnored : Obligations.UnreadOperandIsIgnored := by
  intro s cmd opnd opnd' data hsel
  have hseed (v : Word64) : seedOf ⟨cmd, v, data⟩ = none := seedOf_eq_none hsel
  have hd : decode ⟨cmd, opnd, data⟩ = decode ⟨cmd, opnd', data⟩ :=
    decode_congr rfl ((hseed opnd).trans (hseed opnd').symm) rfl
  exact step_present_congr s hd rfl

/-- Settles O15: the seed is the OPND that encoding the instruction again gives (O12). -/
theorem seedAssembly : Obligations.SeedAssembly := by
  intro t i hd
  have hopnd : (encode i).opnd = if t.cmd.getLsbD 12 then t.opnd else 0 := congrArg (·.opnd) (encodeOfDecode t i hd)
  refine ⟨?_, ?_, ?_⟩
  · rintro seed data rfl
    have hseed : seed.getD 0 = if t.cmd.getLsbD 12 then t.opnd else 0 := hopnd
    refine ⟨?_, fun hsel hwide s => ⟨_, exec_hash32_wide ?_ data s, answers_respond s .seedWidth .none, rfl, rfl⟩⟩
    · rw [seed32, hseed]; split <;> rfl
    · rwa [hseed, if_pos hsel]
  · rintro seed data rfl; exact hopnd
  · rintro c seed data rfl; exact hopnd

end Sys2Proof
end

section
/-! The value of each command's success (spec/30_encoding.md R101), and the script's pseudo-commands (R104). -/

namespace Sys2Proof.Machine

open Sys2Proof.Claims

/-- If the state `t` has answered once more than `s`, with a success, then its value is as R101 says. -/
def ShapedAnswer (i : Instr) (s t : State) : Prop :=
  ∀ v, t.responses = s.responses ++ [⟨.ok, v⟩] → ValueShape i v

theorem shapedAnswer_fail {i : Instr} {s : State} {code : Status} (h : code ≠ .ok) : ShapedAnswer i s (s.fail code) := by
  intro v hv
  simp [State.fail_eq, h] at hv

/-- An answer is shaped as its value is, from any state with the responses given so far. -/
theorem shapedAnswer_respond {i : Instr} {s u : State} {v : Value} (hu : u.responses = s.responses) (h : ValueShape i v) :
    ShapedAnswer i s (u.respond .ok v) := by
  intro v' hv'
  have hv : v = v' := by simpa [hu] using hv'
  exact hv ▸ h

theorem ensures_shapedAnswer (i : Instr) (s : State) : Ensures (ShapedAnswer i s) (exec i s) := by
  cases i <;> simp only [exec]
  case hash32 =>
    exact ensures_withSeed32 (shapedAnswer_fail nofun) fun _ => ensures_next (shapedAnswer_respond rfl ⟨_, rfl⟩)
  case hash128 => exact ensures_next (shapedAnswer_respond rfl ⟨_, rfl⟩)
  case digLanes =>
    exact ensures_withNoData (shapedAnswer_fail nofun) fun _ =>
      ensures_withDigest (shapedAnswer_fail nofun) fun _ _ => ensures_next (shapedAnswer_respond rfl ⟨_, rfl⟩)
  case digBytes =>
    exact ensures_withNoData (shapedAnswer_fail nofun) fun _ =>
      ensures_withDigest (shapedAnswer_fail nofun) fun l _ =>
        ensures_next (shapedAnswer_respond rfl ⟨_, rfl, length_ser128 l⟩)
  case digPut data =>
    refine ensures_withDigest (shapedAnswer_fail nofun) fun l _ =>
      ensures_withBuffer (shapedAnswer_fail nofun) fun hlong => ensures_next (shapedAnswer_respond rfl ⟨_, rfl, ?_⟩)
    rw [List.length_append, length_ser128, length_slice]
    omega
  case accInit | accReset =>
    exact ensures_withContext (shapedAnswer_fail nofun) fun _ _ =>
      ensures_withNoData (shapedAnswer_fail nofun) fun _ => ensures_next (shapedAnswer_respond rfl rfl)
  case accWrite =>
    refine ensures_withContext (shapedAnswer_fail nofun) fun _ _ => ?_
    split
    · exact ensures_fault _
    · exact ensures_next (shapedAnswer_respond rfl rfl)
  case accSum =>
    exact ensures_withContext (shapedAnswer_fail nofun) fun _ _ =>
      ensures_next (shapedAnswer_respond rfl ⟨_, rfl, by rw [List.length_append, length_ser128]⟩)
  case accSum128 =>
    exact ensures_withContext (shapedAnswer_fail nofun) fun _ _ =>
      ensures_withNoData (shapedAnswer_fail nofun) fun _ => ensures_next (shapedAnswer_respond rfl ⟨_, rfl⟩)
  case rdStatus =>
    exact ensures_withNoData (shapedAnswer_fail nofun) fun _ => ensures_next (shapedAnswer_respond rfl ⟨_, rfl⟩)

end Sys2Proof.Machine

namespace Sys2Proof.Script

/-! The forms of R102 that R104's pseudo-commands expand to, and the pseudo-commands, one equation each. -/

theorem command_hash128 (ts : List Token) : command ['H', 'A', 'S', 'H', '1', '2', '8'] ts = (do
    let (seed, data) ← seedAndBytes 64 ts
    .ok (.hash128 seed data)) := rfl

theorem command_hash128X64 (ts : List Token) : command ['H', 'A', 'S', 'H', '1', '2', '8', 'X', '6', '4'] ts = (do
    let (seed, data) ← seedAndBytes 64 ts
    .ok (.hash128 seed data)) := rfl

theorem command_accInit (c : List Char) : command ['A', 'C', 'C', '.', 'I', 'N', 'I', 'T'] [.word c] = (do
    .ok (.accInit (← contextName c) none [])) := rfl

theorem command_accNew (c : List Char) : command ['A', 'C', 'C', '.', 'N', 'E', 'W'] [.word c] = (do
    .ok (.accInit (← contextName c) none [])) := rfl

theorem command_writeText (c : List Char) (items : List TextItem) :
    command ['A', 'C', 'C', '.', 'W', 'R', 'I', 'T', 'E', '_', 'T', 'E', 'X', 'T'] [.word c, .comma, .text items] = (do
      .ok (.accWrite (← contextName c) (stringBytes items))) := rfl

end Sys2Proof.Script

namespace Sys2Proof

open Machine

/-- Settles O17, from the paths of each command on which it succeeds. -/
theorem responseValueByCommand : Obligations.ResponseValueByCommand := fun i s t v h =>
  ensures_shapedAnswer i s t h v

/-- Settles O13: the words are fixed, so the decoder is run on each. -/
theorem decodeSampleWords : Obligations.DecodeSampleWords := by
  unfold Obligations.DecodeSampleWords
  decide

/-- Settles O55: each line is what the equation of its form says. -/
theorem pseudoCommandsExpand : Obligations.PseudoCommandsExpand := by
  refine ⟨fun ts => (Script.command_hash128X64 ts).trans (Script.command_hash128 ts).symm,
    fun c => (Script.command_accNew c).trans (Script.command_accInit c).symm, fun c items i h => ?_⟩
  rw [Script.command_writeText] at h
  cases hc : Script.contextName c with
  | error e => rw [hc] at h; cases h
  | ok n => rw [hc] at h; cases h; exact ⟨n, rfl, rfl⟩

end Sys2Proof
end

section
/-! The bit-mixing primitives (spec/40_mixer.md R129 to R135). The rotations are the library's rotation of a bit vector; the
finalizers are one composition of xor-shifts and multiplications, at two widths. -/

namespace Sys2Proof.Machine

variable {w : Nat}

/-! ### Rotations -/

theorem rotateLeft_zero (x : BitVec w) : x.rotateLeft 0 = x := by
  rw [BitVec.rotateLeft_def, Nat.zero_mod, BitVec.shiftLeft_zero, BitVec.ushiftRight_eq_zero (Nat.sub_zero w).ge]
  exact BitVec.or_zero

theorem rotl32_eq_rotateLeft (x : Word32) (r : BitVec 5) : rotl32 x r = x.rotateLeft r.toNat := by
  unfold rotl32
  split
  case isTrue hr => subst hr; exact (rotateLeft_zero x).symm
  case isFalse => rw [BitVec.rotateLeft_def, Nat.mod_eq_of_lt r.isLt]

theorem rotl64_eq_rotateLeft (x : Word64) (r : BitVec 6) : rotl64 x r = x.rotateLeft r.toNat := by
  unfold rotl64
  split
  case isTrue hr => subst hr; exact (rotateLeft_zero x).symm
  case isFalse => rw [BitVec.rotateLeft_def, Nat.mod_eq_of_lt r.isLt]

/-- The library's two cases, a bit that wrapped around and one that did not, are one index modulo the width. -/
theorem getLsbD_rotateLeft_eq_getLsbD_mod (x : BitVec w) {r i : Nat} (hr : r < w) (hi : i < w) :
    (x.rotateLeft r).getLsbD i = x.getLsbD ((i + w - r) % w) := by
  rw [BitVec.getLsbD_rotateLeft_of_le hr]
  by_cases hir : i < r
  · have hidx : (i + w - r) % w = w - r + i := by rw [Nat.mod_eq_of_lt (by omega)]; omega
    simp [hir, hidx]
  · have hidx : (i + w - r) % w = i - r := by
      rw [show i + w - r = i - r + w by omega, Nat.add_mod_right, Nat.mod_eq_of_lt (by omega)]
    simp [hir, hi, hidx]

/-! ### Avalanche finalizers -/

/-- The step `k ^ (k >> s)` of R132 and R133. -/
def xorShiftRight (s : Nat) (x : BitVec w) : BitVec w := x ^^^ (x >>> s)

/-- The shape that R132 and R133 share: xor-shifts by `s`, `t` and `u`, with multiplications by `c` and `d` between them. -/
def avalanche (s t u : Nat) (c d : BitVec w) : BitVec w → BitVec w :=
  xorShiftRight u ∘ (· * d) ∘ xorShiftRight t ∘ (· * c) ∘ xorShiftRight s

theorem fmix32_eq_avalanche : fmix32 = avalanche 16 13 16 0x85ebca6b 0xc2b2ae35 := rfl

theorem fmix64_eq_avalanche : fmix64 = avalanche 33 33 33 0xff51afd7ed558ccd 0xc4ceb9fe1a85ec53 := rfl

theorem xorShiftRight_xor (s : Nat) (x y : BitVec w) :
    xorShiftRight s (x ^^^ y) = xorShiftRight s x ^^^ xorShiftRight s y := by
  unfold xorShiftRight
  rw [BitVec.ushiftRight_xor_distrib]
  ac_rfl

/-- A word with xor-shift zero equals its own shift, which is its quotient by a power of two other than 1. -/
theorem eq_zero_of_xorShiftRight_eq_zero {s : Nat} (hs : s ≠ 0) {z : BitVec w} (h : xorShiftRight s z = 0) : z = 0 := by
  have hshift : z >>> s = z := (BitVec.xor_eq_zero_iff.mp h).symm
  have hdiv : z.toNat / 2 ^ s = z.toNat := by
    rw [← Nat.shiftRight_eq_div_pow, ← BitVec.toNat_ushiftRight, hshift]
  rcases Nat.div_eq_self.mp hdiv with hz | hpow
  · exact BitVec.eq_of_toNat_eq hz
  · exact absurd hpow (Nat.one_lt_two_pow hs).ne'

theorem xorShiftRight_injective {s : Nat} (hs : s ≠ 0) :
    Function.Injective (xorShiftRight s : BitVec w → BitVec w) := by
  intro x y hxy
  have hdiff : xorShiftRight s (x ^^^ y) = 0 := by rw [xorShiftRight_xor, hxy]; exact BitVec.xor_self
  exact BitVec.xor_eq_zero_iff.mp (eq_zero_of_xorShiftRight_eq_zero hs hdiff)

theorem xorShiftRight_bijective {s : Nat} (hs : s ≠ 0) :
    Function.Bijective (xorShiftRight s : BitVec w → BitVec w) :=
  have : Finite (BitVec w) := Finite.of_equiv _ BitVec.equivFin.symm.toEquiv
  Finite.injective_iff_bijective.mp (xorShiftRight_injective hs)

theorem mul_right_bijective_of_mul_eq_one {c : BitVec w} (c' : BitVec w) (h : c * c' = 1) :
    Function.Bijective (· * c) :=
  IsUnit.isUnit_iff_mulRight_bijective.mp (IsUnit.of_mul_eq_one c' h)

theorem avalanche_bijective {s t u : Nat} (hs : s ≠ 0) (ht : t ≠ 0) (hu : u ≠ 0) {c d : BitVec w} (c' d' : BitVec w)
    (hc : c * c' = 1) (hd : d * d' = 1) : Function.Bijective (avalanche s t u c d) :=
  (xorShiftRight_bijective hu).comp <| (mul_right_bijective_of_mul_eq_one d' hd).comp <|
    (xorShiftRight_bijective ht).comp <| (mul_right_bijective_of_mul_eq_one c' hc).comp (xorShiftRight_bijective hs)

end Sys2Proof.Machine

namespace Sys2Proof

open Machine

/-- Settles O31: a rotation port carries an amount below the width, so the library's rotation gives the bits. -/
theorem rotationMovesBits : Obligations.RotationMovesBits := by
  refine ⟨fun x r i hi => ?_, fun x r i hi => ?_⟩
  · rw [rotl32_eq_rotateLeft]
    exact getLsbD_rotateLeft_eq_getLsbD_mod x r.isLt hi
  · rw [rotl64_eq_rotateLeft]
    exact getLsbD_rotateLeft_eq_getLsbD_mod x r.isLt hi

/-- Settles O32: both are compositions of permutations; the two constants of each have the inverses written here. -/
theorem avalanchesArePermutations : Obligations.AvalanchesArePermutations := by
  refine ⟨?_, ?_⟩
  · rw [fmix32_eq_avalanche]
    exact avalanche_bijective (by decide) (by decide) (by decide) 0xa5cb9243 0x7ed1b41d (by decide) (by decide)
  · rw [fmix64_eq_avalanche]
    exact avalanche_bijective (by decide) (by decide) (by decide) 0x4f74430c22a54005 0x9cb4b2f8129337db
      (by decide) (by decide)

end Sys2Proof
end

section
/-! The k-mixes and the tail steps of both hashes (spec/41_hash32.md R161, R164, spec/42_hash128.md R191, R192, R195). A k-mix
is one composition of multiplications and a rotation, at two widths and with three choices of constants. -/

namespace Sys2Proof.Machine

variable {w : Nat}

/-! ### The k-mixes -/

/-- Every bit of the operand is a bit of its rotation. -/
theorem rotateLeft_injective {r : Nat} (hr : r < w) : Function.Injective fun x : BitVec w => x.rotateLeft r := by
  intro x y hxy
  refine BitVec.eq_of_getLsbD_eq fun i hi => ?_
  have hidx : ((i + r) % w + w - r) % w = i := by
    rw [Nat.add_sub_assoc hr.le, Nat.mod_add_mod, show i + r + (w - r) = i + w by omega, Nat.add_mod_right,
      Nat.mod_eq_of_lt hi]
  have hbit (z : BitVec w) : (z.rotateLeft r).getLsbD ((i + r) % w) = z.getLsbD i := by
    rw [getLsbD_rotateLeft_eq_getLsbD_mod z hr (Nat.mod_lt _ (by omega)), hidx]
  rw [← hbit x, ← hbit y]
  exact congrArg (·.getLsbD ((i + r) % w)) hxy

theorem rotateLeft_bijective {r : Nat} (hr : r < w) : Function.Bijective fun x : BitVec w => x.rotateLeft r :=
  have : Finite (BitVec w) := Finite.of_equiv _ BitVec.equivFin.symm.toEquiv
  Finite.injective_iff_bijective.mp (rotateLeft_injective hr)

/-- The shape that R161, R191 and R192 share: multiply by `c`, rotate by `r`, multiply by `d`. -/
def mulRotateMul (c : BitVec w) (r : Nat) (d : BitVec w) : BitVec w → BitVec w :=
  (· * d) ∘ (fun x => x.rotateLeft r) ∘ (· * c)

theorem kmix32_eq_mulRotateMul : kmix32 = mulRotateMul c1x32 15 c2x32 :=
  funext fun _ => congrArg (· * c2x32) (rotl32_eq_rotateLeft _ _)

theorem kmix1_eq_mulRotateMul : kmix1 = mulRotateMul c1x64 31 c2x64 :=
  funext fun _ => congrArg (· * c2x64) (rotl64_eq_rotateLeft _ _)

theorem kmix2_eq_mulRotateMul : kmix2 = mulRotateMul c2x64 33 c1x64 :=
  funext fun _ => congrArg (· * c1x64) (rotl64_eq_rotateLeft _ _)

theorem mulRotateMul_bijective {r : Nat} (hr : r < w) {c d : BitVec w} (c' d' : BitVec w) (hc : c * c' = 1)
    (hd : d * d' = 1) : Function.Bijective (mulRotateMul c r d) :=
  (mul_right_bijective_of_mul_eq_one d' hd).comp <|
    (rotateLeft_bijective hr).comp (mul_right_bijective_of_mul_eq_one c' hc)

@[simp] theorem kmix32_zero : kmix32 0 = 0 := by decide
@[simp] theorem kmix1_zero : kmix1 0 = 0 := by decide
@[simp] theorem kmix2_zero : kmix2 0 = 0 := by decide

/-! ### The tail steps -/

/-- An empty tail leaves the running hash alone (R164). -/
@[simp] theorem tail32_nil (h : Word32) : tail32 h [] = h := by
  rw [tail32, leWord_nil, kmix32_zero]
  exact BitVec.xor_zero

/-- A tail of at most 8 bytes is all in lane 1's word (R195). -/
theorem tail128_of_length_le (l : Lanes) {t : Bytes} (h : t.length ≤ 8) :
    tail128 l t = ⟨l.h1 ^^^ kmix1 (leWord 64 t), l.h2⟩ := by
  have hlane2 : l.h2 ^^^ kmix2 0 = l.h2 := by rw [kmix2_zero]; exact BitVec.xor_zero
  simp only [tail128, List.drop_of_length_le h, List.take_of_length_le h, leWord_nil, hlane2]

/-- An empty tail leaves both lanes alone (R195). -/
@[simp] theorem tail128_nil (l : Lanes) : tail128 l [] = l := by
  have hlane1 : l.h1 ^^^ kmix1 0 = l.h1 := by rw [kmix1_zero]; exact BitVec.xor_zero
  rw [tail128_of_length_le l (t := []) (Nat.zero_le 8), leWord_nil, hlane1]

end Sys2Proof.Machine

namespace Sys2Proof

open Machine

/-- Settles O33: each is a composition of permutations; each constant has the inverse written here. -/
theorem kMixesArePermutations : Obligations.KMixesArePermutations := by
  have hc1 : c1x64 * 0xa98409e882ce4d7d = 1 := by decide
  have hc2 : c2x64 * 0xa81e14edd9de2c7f = 1 := by decide
  refine ⟨?_, ?_, ?_, kmix32_zero, kmix1_zero, kmix2_zero⟩
  · rw [kmix32_eq_mulRotateMul]
    exact mulRotateMul_bijective (by decide) 0xdee13bb1 0x56ed309b (by decide) (by decide)
  · rw [kmix1_eq_mulRotateMul]
    exact mulRotateMul_bijective (by decide) _ _ hc1 hc2
  · rw [kmix2_eq_mulRotateMul]
    exact mulRotateMul_bijective (by decide) _ _ hc2 hc1

/-- Settles O37: the word of an empty tail, or half of one, is 0, which the k-mixes keep. -/
theorem emptyTailsChangeNothing : Obligations.EmptyTailsChangeNothing := by
  refine ⟨tail32_nil, tail128_nil, fun l t h => ?_⟩
  rw [tail128_of_length_le l h]
  exact ⟨rfl, rfl⟩

end Sys2Proof
end

section
/-! The words of one row (spec/30_encoding.md R98, R99), as the statements about single commands give them. -/

namespace Sys2Proof.Machine

open Sys2Proof.Claims

/-- A word with a row's OPC selects that row exactly when its other fields are legal there (R98, R99). -/
theorem selectedBy_iff_fieldsLegal {op : Opcode} {t : Transaction} (hopc : cmdOpc t.cmd = op.code) :
    op.selectedBy t.cmd = true ↔ FieldsLegal op.takesContext op.takesSeed t := by
  rw [op.selectedBy_iff_fields]
  constructor
  · rintro ⟨-, hctx, hsel, hrsvd⟩
    exact ⟨hrsvd, (Bool.eq_false_or_eq_true _).imp_right hctx, (Bool.eq_false_or_eq_true _).imp_right hsel⟩
  · rintro ⟨hrsvd, hctx, hsel⟩
    exact ⟨hopc, fun hno => hctx.resolve_left (by simp [hno]), fun hno => hsel.resolve_left (by simp [hno]), hrsvd⟩

/-- Every row of R99 is answered as the row's instruction or as an error, by its fields. -/
theorem wordFor_opcode (op : Opcode) : WordFor op.code op.takesContext op.takesSeed (decodeOperands op) := by
  intro t hopc
  have hiff := selectedBy_iff_fieldsLegal hopc
  refine ⟨fun hlegal => ?_, fun hillegal => ?_⟩
  · have hd := decode_of_selectedBy (hiff.mpr hlegal)
    exact ⟨hd, fun s hlen => step_present_ok hlen hd⟩
  · have hsel : op.selectedBy t.cmd = false := Bool.eq_false_iff.mpr (mt hiff.mp hillegal)
    have hd := decode_of_reserved hopc.symm hsel
    exact ⟨hd, fun s hlen => step_present_fails hlen hd⟩

end Sys2Proof.Machine
end

section
/-! HASH32 (spec/41_hash32.md R163 to R167): the function over any blocks and tail, and the command. -/

namespace Sys2Proof.Machine

theorem length_flatten_of_length_eq {blocks : List Bytes} {n : Nat} (h : ∀ b ∈ blocks, b.length = n) :
    blocks.flatten.length = n * blocks.length := by
  rw [List.length_flatten, List.sum_eq_card_nsmul _ n (by simpa using h), List.length_map, smul_eq_mul, Nat.mul_comm]

theorem blocks32_one {b : Bytes} (h : b.length = 4) (seed : Word32) :
    blocks32 seed b 1 = block32 seed (leWord 32 b) := by
  have hread : memRead 32 b 0 = leWord 32 b := by simp [memRead, slice, ← h]
  rw [blocks32_succ, blocks32_zero, Nat.mul_zero, hread]

/-- The blocks of a concatenation are taken one after the other (R163). -/
theorem blocks32_flatten {blocks : List Bytes} (h : ∀ b ∈ blocks, b.length = 4) (seed : Word32) :
    blocks32 seed blocks.flatten blocks.length = blocks.foldl (fun k b => block32 k (leWord 32 b)) seed := by
  induction blocks generalizing seed with
  | nil => rfl
  | cons b rest ih =>
    obtain ⟨hb, hrest⟩ := List.forall_mem_cons.mp h
    rw [List.flatten_cons, List.length_cons, Nat.add_comm, blocks32_append seed b _ 1 _ hb, blocks32_one hb, ih hrest,
      List.foldl_cons]

/-- HASH32_FN of a whole number of blocks and a tail shorter than a block (R163, R166). -/
theorem hash32Fn_append {body tail : Bytes} {n : Nat} (hbody : body.length = 4 * n) (htail : tail.length < 4)
    (seed : Word32) :
    hash32Fn (body ++ tail) seed = final32 (tail32 (blocks32 seed body n) tail) (4 * n + tail.length) := by
  have hlen : (body ++ tail).length = 4 * n + tail.length := by rw [List.length_append, hbody]
  have hnb : (body ++ tail).length / 4 = n := by omega
  rw [hash32Fn, hnb, blocks32_append_right seed body tail n hbody.ge, slice_to_end, List.drop_left' hbody, hlen]

/-- The empty input has no block, and its length is 0 (R167). -/
theorem hash32Fn_nil (seed : Word32) : hash32Fn [] seed = fmix32 seed := by
  have hnoBlock : hash32Fn [] seed = final32 (tail32 seed []) 0 := rfl
  rw [hnoBlock, tail32_nil, final32]
  exact congrArg fmix32 BitVec.xor_zero

end Sys2Proof.Machine

namespace Sys2Proof

open Machine

/-- Settles O29: the blocks are the whole number of blocks before the tail, and they are taken in order. -/
theorem hash32OfBlocksAndTail : Obligations.Hash32OfBlocksAndTail := by
  intro blocks tail seed hblocks htail
  rw [hash32Fn_append (length_flatten_of_length_eq hblocks) htail, blocks32_flatten hblocks]
  rfl

/-- Settles O18, from the words of its row, the two outcomes of the command, and the function on the empty input. -/
theorem hash32Command : Obligations.Hash32Command := by
  refine ⟨wordFor_opcode .hash32, fun s seed data hfits => ?_, fun s v data hwide => ?_, hash32Fn_nil, by decide⟩
  · have hnarrow : (seed.getD 0).extractLsb' 32 32 = 0 := by
      cases seed with
      | none => rfl
      | some v => exact hfits v rfl
    exact ⟨_, exec_hash32_fits hnarrow data s, succeeds_respond s _, rfl, rfl⟩
  · exact ⟨_, exec_hash32_wide (seed := some v) hwide data s, answers_respond s .seedWidth .none, rfl, rfl⟩

end Sys2Proof
end

section
/-! HASH128 (spec/42_hash128.md R193 to R197, R201): the function over any blocks and tail, and the command. -/

namespace Sys2Proof.Machine

open Sys2Proof.Claims

/-- A single block is read as the two words of R194. -/
theorem blocks128_one {b : Bytes} (h : b.length = 16) (l : Lanes) : blocks128 l b 1 = blockStep l b := by
  have hlow : memRead 64 b 0 = leWord 64 (b.take 8) := rfl
  have hhigh : memRead 64 b 8 = leWord 64 (b.drop 8) := by rw [← slice_to_end b 8, h]; rfl
  rw [blocks128_succ, blocks128_zero, Nat.mul_zero, Nat.zero_add, hlow, hhigh, blockStep]

/-- The blocks of a concatenation are taken one after the other (R194). -/
theorem blocks128_flatten {blocks : List Bytes} (h : ∀ b ∈ blocks, b.length = 16) (l : Lanes) :
    blocks128 l blocks.flatten blocks.length = blocks.foldl blockStep l := by
  induction blocks generalizing l with
  | nil => rfl
  | cons b rest ih =>
    obtain ⟨hb, hrest⟩ := List.forall_mem_cons.mp h
    rw [List.flatten_cons, List.length_cons, Nat.add_comm, blocks128_append l b _ 1 _ hb, blocks128_one hb, ih hrest,
      List.foldl_cons]

/-- HASH128_FN of a whole number of blocks and a tail shorter than a block (R194, R197). -/
theorem hash128Fn_append {body tail : Bytes} {n : Nat} (hbody : body.length = 16 * n) (htail : tail.length < 16)
    (seed : Word64) :
    hash128Fn (body ++ tail) seed =
      final128 (blocks128 ⟨seed, seed⟩ body n) tail (BitVec.ofNat 64 (16 * n + tail.length)) := by
  have hlen : (body ++ tail).length = 16 * n + tail.length := by rw [List.length_append, hbody]
  have hnb : (body ++ tail).length / 16 = n := by omega
  rw [hash128Fn, hnb, blocks128_append_right _ body tail n hbody.ge, slice_to_end, List.drop_left' hbody, hlen]

/-- The empty input has no block and no tail, and its length is 0 (R201). -/
theorem hash128Fn_nil (seed : Word64) : hash128Fn [] seed = final128 ⟨seed, seed⟩ [] 0 := rfl

end Sys2Proof.Machine

namespace Sys2Proof

open Machine

/-- Settles O30: the blocks are the whole number of blocks before the tail, and they are taken in order; the values are
computed. -/
theorem hash128OfBlocksAndTail : Obligations.Hash128OfBlocksAndTail := by
  refine ⟨fun blocks tail seed hblocks htail => ?_, by decide, by decide, by decide, by decide, by decide⟩
  rw [hash128Fn_append (length_flatten_of_length_eq hblocks) htail, blocks128_flatten hblocks]

/-- Settles O19, from the words of its row, the command's one outcome, and the function on the empty input and the source's
vectors. -/
theorem hash128Command : Obligations.Hash128Command :=
  ⟨wordFor_opcode .hash128,
    fun s seed data => ⟨_, exec_hash128_next seed data s, succeeds_respond (s.setDigest _) _, rfl, rfl⟩,
    hash128Fn_nil, by decide, by decide, by decide⟩

end Sys2Proof
end

section
/-! The serialized digest (spec/42_hash128.md R198, R199) and the three views of the digest register (R202 to R204). -/

namespace Sys2Proof.Machine

open Sys2Proof.Claims

/-! ### The serialized digest -/

section serialized

variable (l : Lanes)

@[simp] theorem take_ser128 : (ser128 l).take 8 = leBytes 8 l.h1 := List.take_left' (length_leBytes 8 l.h1)

@[simp] theorem drop_ser128 : (ser128 l).drop 8 = leBytes 8 l.h2 := List.drop_left' (length_leBytes 8 l.h1)

theorem ser128_getElem?_lane1 {i : Nat} (h : i < 8) : (ser128 l)[i]? = some (l.h1.extractLsb' (8 * i) 8) := by
  rw [← List.getElem?_take_of_lt h, take_ser128, leBytes_getElem? 8 l.h1 h]

theorem ser128_getElem?_lane2 {i : Nat} (h : i < 8) : (ser128 l)[8 + i]? = some (l.h2.extractLsb' (8 * i) 8) := by
  rw [← List.getElem?_drop, drop_ser128, leBytes_getElem? 8 l.h2 h]

/-- SER128 decodes back to the lane pair (R199). -/
theorem leWord_slice_ser128 :
    leWord 64 (slice (ser128 l) 0 8) = l.h1 ∧ leWord 64 (slice (ser128 l) 8 16) = l.h2 := by
  have hlow : slice (ser128 l) 0 8 = leBytes 8 l.h1 := take_ser128 l
  have hhigh : slice (ser128 l) 8 16 = leBytes 8 l.h2 := (slice_to_end (ser128 l) 8).trans (drop_ser128 l)
  rw [hlow, hhigh]
  exact ⟨leWord_leBytes 8 l.h1 le_rfl, leWord_leBytes 8 l.h2 le_rfl⟩

/-- Two MemWrites, one per lane, put SER128 in the first 16 bytes (R204). -/
theorem memWrite_memWrite_lanes (buf : Bytes) :
    memWrite (memWrite buf 0 8 l.h1) 8 8 l.h2 = ser128 l ++ buf.drop 16 := by
  have hfirst : memWrite buf 0 8 l.h1 = leBytes 8 l.h1 ++ buf.drop 8 := rfl
  have hrest : (leBytes 8 l.h1 ++ buf.drop 8).drop (8 + 8) = buf.drop 16 := by
    rw [← List.drop_drop, List.drop_left' (length_leBytes 8 l.h1), List.drop_drop]
  rw [hfirst, memWrite, List.take_left' (length_leBytes 8 l.h1), hrest, ser128]

end serialized

/-! ### The views -/

theorem fails_respond (s : State) (code : Status) : Fails s (s.respond code .none) code :=
  ⟨answers_respond s code .none, rfl, rfl⟩

section views

variable {s : State} {l : Lanes}

/-- Check 5 of R273 refuses a command that takes no DATA, whatever it would do. -/
theorem withNoData_fails {data : Bytes} (h : data ≠ []) (k : Result) :
    ∃ t, withNoData s data k = .next t ∧ Fails s t .badOperand :=
  ⟨_, withNoData_of_ne h k, fails_respond s .badOperand⟩

/-- Check 6 of R273 refuses a view of an invalid digest, whatever it would do (R45). -/
theorem withDigest_fails (h : s.dig = none) (k : Lanes → Result) :
    ∃ t, withDigest s k = .next t ∧ Fails s t .noDigest :=
  ⟨_, withDigest_none h k, fails_respond s .noDigest⟩

theorem exec_digLanes (data : Bytes) (s : State) :
    exec (.digLanes data) s = withNoData s data (withDigest s fun l => complete s (.lanes l)) := rfl

theorem exec_digBytes (data : Bytes) (s : State) :
    exec (.digBytes data) s = withNoData s data (withDigest s fun l => complete s (.bytes (ser128 l))) := rfl

theorem exec_digPut (buf : Bytes) (s : State) :
    exec (.digPut buf) s = withDigest s fun l => withBuffer s buf (complete s (.bytes (ser128 l ++ buf.drop 16))) := by
  rw [← slice_to_end buf 16]; rfl

theorem exec_digLanes_next (h : s.dig = some l) : exec (.digLanes []) s = .next (s.respond .ok (.lanes l)) := by
  rw [exec_digLanes, withNoData_nil, withDigest_some h, complete_eq]

theorem exec_digBytes_next (h : s.dig = some l) :
    exec (.digBytes []) s = .next (s.respond .ok (.bytes (ser128 l))) := by
  rw [exec_digBytes, withNoData_nil, withDigest_some h, complete_eq]

theorem exec_digPut_next (h : s.dig = some l) {buf : Bytes} (hbuf : 16 ≤ buf.length) :
    exec (.digPut buf) s = .next (s.respond .ok (.bytes (ser128 l ++ buf.drop 16))) := by
  rw [exec_digPut, withDigest_some h, withBuffer_long hbuf, complete_eq]

theorem exec_digPut_short (h : s.dig = some l) {buf : Bytes} (hbuf : buf.length < 16) :
    exec (.digPut buf) s = .next (s.respond .shortBuf .none) := by
  rw [exec_digPut, withDigest_some h, withBuffer_short hbuf, raise_eq]

end views

end Sys2Proof.Machine

namespace Sys2Proof

open Machine

/-- Settles O20, from the words of its row, the command's success, and checks 5 and 6. -/
theorem digLanesCommand : Obligations.DigLanesCommand :=
  ⟨wordFor_opcode .digLanes, fun s _ h => ⟨_, exec_digLanes_next h, succeeds_respond s _, rfl, rfl⟩,
    fun _ _ h => withNoData_fails h _, fun _ h => withDigest_fails h _⟩

/-- Settles O21, from the words of its row, the command's success with the bytes of SER128, and checks 5 and 6. -/
theorem digBytesCommand : Obligations.DigBytesCommand :=
  ⟨wordFor_opcode .digBytes,
    fun s l h => ⟨_, ser128 l, exec_digBytes_next h, succeeds_respond s _, rfl, rfl, length_ser128 l,
      fun _ hi => ⟨ser128_getElem?_lane1 l hi, ser128_getElem?_lane2 l hi⟩⟩,
    fun _ _ h => withNoData_fails h _, fun _ h => withDigest_fails h _⟩

/-- Settles O22, from the words of its row, what the success does to the buffer, and checks 6 and 7. -/
theorem digPutCommand : Obligations.DigPutCommand := by
  refine ⟨wordFor_opcode .digPut, fun s l buf h hbuf => ?_, fun s buf h => withDigest_fails h _,
    fun s l buf h hbuf => ⟨_, exec_digPut_short h hbuf, fails_respond s .shortBuf⟩⟩
  refine ⟨_, ser128 l ++ buf.drop 16, exec_digPut_next h hbuf, succeeds_respond s _, rfl, rfl, ?_,
    List.take_left' (length_ser128 l), fun j hj => ?_, (memWrite_memWrite_lanes l buf).symm⟩
  · rw [List.length_append, length_ser128, List.length_drop, Nat.add_sub_cancel' hbuf]
  · rw [List.getElem?_append_right (by rwa [length_ser128]), length_ser128, List.getElem?_drop, Nat.add_sub_cancel' hj]

/-- Settles O36: HASH128 loads DIG, each view answers it and keeps it, and SER128 decodes back to the lanes. -/
theorem digestViewsAgree : Obligations.DigestViewsAgree := by
  refine ⟨leWord_slice_ser128, fun s seed data buf hbuf => ?_⟩
  exact ⟨_, _, _, _, _, _, _,
    exec_hash128_next seed data s, succeeds_respond (s.setDigest _) _,
    exec_digLanes_next rfl, succeeds_respond _ _,
    exec_digBytes_next rfl, succeeds_respond _ _,
    exec_digPut_next rfl hbuf, succeeds_respond _ _,
    List.take_left' (length_ser128 _), leWord_slice_ser128 _⟩

end Sys2Proof
end

section
/-! The five accumulator commands (spec/43_accumulator.md R229 to R236): what each leaves in its context, and what refuses
it. -/

namespace Sys2Proof.Machine

open Sys2Proof.Claims

theorem AccCtx.eq_of_fields {a b : AccCtx} (hseed : a.seed = b.seed) (hlanes : a.lanes = b.lanes) (htail : a.tail = b.tail)
    (htotal : a.total = b.total) : a = b := by
  cases a; cases b; simp_all [AccCtx.lanes]

/-- A write of no bytes leaves a context with a tail shorter than a block as it was (R233). -/
theorem absorb_nil {a : AccCtx} (h : a.tail.length ≤ 15) : absorb a [] = a := by
  have hnb : (a.tail ++ []).length / 16 = 0 := by rw [List.append_nil]; omega
  refine AccCtx.eq_of_fields rfl ?_ ?_ ?_
  · rw [absorb_lanes, hnb, blocks128_zero]
  · rw [absorb_tail, hnb, Nat.mul_zero, List.drop_zero, List.append_nil]
  · rw [absorb_total]; exact BitVec.add_zero _

section commands

variable {s : State} {c : BitVec 4} {a : AccCtx} {data : Bytes}

theorem exec_accSum_next (h : s.acc[c.toNat]? = some a) (data : Bytes) :
    exec (.accSum c data) s = .next (s.respond .ok (.bytes (data ++ ser128 (accDigest a)))) := by
  rw [exec, execAccSum, withContext_some h, complete_eq]

theorem writesContext_respond_setContext (hc : c.toNat < s.nAcc) (b : AccCtx) (st : Status) (v : Value) :
    WritesContext s ((s.setContext c b).respond st v) c b :=
  ⟨List.length_set, List.getElem?_set_self hc, fun _ hj => List.getElem?_set_ne hj.symm⟩

/-- Check 3 of R273 refuses a context that is not there, whatever the command would do. -/
theorem withContext_fails (h : s.nAcc ≤ c.toNat) (k : AccCtx → Result) :
    ∃ t, withContext s c k = .next t ∧ Fails s t .badCtx :=
  ⟨_, withContext_none (List.getElem?_eq_none h) k, fails_respond s .badCtx⟩

/-- With the context there, check 5 of R273 refuses DATA, whatever the command would do. -/
theorem withContext_withNoData_fails (hc : c.toNat < s.nAcc) (h : data ≠ []) (k : AccCtx → Result) :
    ∃ t, withContext s c (fun a => withNoData s data (k a)) = .next t ∧ Fails s t .badOperand :=
  (withContext_some (List.getElem?_eq_getElem hc) _).symm ▸ withNoData_fails h _

theorem exec_context_of_some {i : Instr} {t : State} (ha : s.acc[c.toNat]? = some a) (h : exec i s = .next t) :
    t.acc[c.toNat]? = some (contextAfter c i a) := by
  rw [exec_context h, ha, Option.map_some]

theorem contextAfter_accWrite (c : BitVec 4) (data : Bytes) (a : AccCtx) :
    contextAfter c (.accWrite c data) a = absorb a data := if_pos rfl

theorem contextAfter_accInit (c : BitVec 4) (seed : Option Word64) (a : AccCtx) :
    contextAfter c (.accInit c seed []) a = AccCtx.fresh (seed64 seed) := if_pos rfl

theorem contextAfter_accReset (c : BitVec 4) (a : AccCtx) : contextAfter c (.accReset c []) a = a.restart := if_pos rfl

end commands

end Sys2Proof.Machine

namespace Sys2Proof

open Machine

/-- Settles O23, from the words of its row, the context its success writes, and checks 3 and 5. -/
theorem accInitCommand : Obligations.AccInitCommand :=
  ⟨wordFor_opcode .accInit,
    fun s c seed hc => ⟨_, exec_accInit_next (List.getElem?_eq_getElem hc) seed, succeeds_respond (s.setContext c _) _, rfl,
      writesContext_respond_setContext hc _ _ _⟩,
    fun _ _ _ _ h => withContext_fails h _, fun _ _ _ _ hc h => withContext_withNoData_fails hc h _⟩

/-- Settles O24, from the words of its row, the context its success writes, and checks 3 and 5. -/
theorem accResetCommand : Obligations.AccResetCommand := by
  refine ⟨wordFor_opcode .accReset, fun s c a ha => ?_, fun _ _ _ h => withContext_fails h _,
    fun _ _ _ hc h => withContext_withNoData_fails hc h _⟩
  obtain ⟨hc, -⟩ := List.getElem?_eq_some_iff.mp ha
  exact ⟨_, exec_accReset_next ha, succeeds_respond (s.setContext c _) _, rfl,
    writesContext_respond_setContext hc a.restart _ _⟩

/-- Settles O25, from the words of its row, the two outcomes of a write to a context that is there, and check 3. -/
theorem accWriteCommand : Obligations.AccWriteCommand := by
  refine ⟨wordFor_opcode .accWrite, fun s c a data ha hov => ?_,
    fun s c a data ha hfault hsum => exec_accWrite_fault ha ⟨hfault, hsum⟩, fun _ _ _ h => withContext_fails h _⟩
  obtain ⟨hc, -⟩ := List.getElem?_eq_some_iff.mp ha
  refine ⟨_, absorb a data, exec_accWrite_next ha hov, succeeds_respond (s.setContext c _) _, rfl,
    writesContext_respond_setContext hc _ _ _, absorb_seed a data, absorb_lanes a data, rfl, ?_, absorb_total_toNat a data,
    ?_⟩
  · rw [absorb_tail_length]; omega
  · rintro rfl htail
    exact absorb_nil htail

/-- Settles O26, from the words of its row, the command's success, check 3, and the digest of the empty input. -/
theorem accSumCommand : Obligations.AccSumCommand :=
  ⟨wordFor_opcode .accSum,
    fun s _ _ data ha => ⟨_, exec_accSum_next ha data, succeeds_respond s _, rfl, rfl⟩,
    fun _ _ _ h => withContext_fails h _, by decide⟩

/-- Settles O27, from the words of its row, the command's success, and checks 3 and 5. -/
theorem accSum128Command : Obligations.AccSum128Command :=
  ⟨wordFor_opcode .accSum128,
    fun s _ _ ha => ⟨_, exec_accSum128_next ha, succeeds_respond (s.setDigest _) _, rfl, rfl⟩,
    fun _ _ _ h => withContext_fails h _, fun _ _ _ hc h => withContext_withNoData_fails hc h _⟩

/-- Settles O38, from what each command makes of its context. -/
theorem controlStateTransitions : Obligations.ControlStateTransitions := by
  refine ⟨fun s t c a data ha h => ⟨absorb a data, ?_, absorb_tail_length a data, ?_⟩, fun s t c seed hc h => ?_,
    fun s t c hc h => ?_, fun s t c data h => ?_⟩
  · rw [exec_context_of_some ha h, contextAfter_accWrite]
  · rw [absorb_lanes, List.length_append]
  · exact ⟨_, exec_context_of_some (List.getElem?_eq_getElem hc) h, by rw [contextAfter_accInit]; rfl⟩
  · exact ⟨_, exec_context_of_some (List.getElem?_eq_getElem hc) h, by rw [contextAfter_accReset]; rfl⟩
  · rcases h with h | h <;> exact (exec_contextsAfter h).eq_of_no_write nofun nofun nofun

/-- Settles O43: a context back at its seed is a fresh one of that seed. -/
theorem resetEquivalence : Obligations.ResetEquivalence := fun _ _ a ha =>
  ⟨_, exec_accReset_next ha, exec_accInit_next ha (some a.seed)⟩

end Sys2Proof
end

section
/-! One accumulator command in two states that agree on its context and the parameters (spec/43_accumulator.md R237, R238):
it does the same in both. -/

namespace Sys2Proof.Machine

open Sys2Proof.Claims

/-- Two results of one command on context `c`, in `s` and in `s'`: both answer alike, with the same digest or the same
context `c` written, or both stop. -/
inductive SameEffect (s s' : State) (c : BitVec 4) : Result → Result → Prop
  | answer (st : Status) (v : Value) : SameEffect s s' c (.next (s.respond st v)) (.next (s'.respond st v))
  | digest (l : Lanes) (v : Value) :
      SameEffect s s' c (.next ((s.setDigest l).respond .ok v)) (.next ((s'.setDigest l).respond .ok v))
  | context (a : AccCtx) :
      SameEffect s s' c (.next ((s.setContext c a).respond .ok .none)) (.next ((s'.setContext c a).respond .ok .none))
  | stop (f : Fault) : SameEffect s s' c (.fault f) (.fault f)

section sameEffect

variable {s s' : State} {c : BitVec 4}

theorem sameEffect_withContext {k k' : AccCtx → Result} (hc : s'.acc[c.toNat]? = s.acc[c.toNat]?)
    (hk : ∀ a, SameEffect s s' c (k a) (k' a)) : SameEffect s s' c (withContext s c k) (withContext s' c k') := by
  cases h : s.acc[c.toNat]? with
  | none => rw [withContext_none h, withContext_none (hc.trans h)]; exact .answer .badCtx .none
  | some a => rw [withContext_some h, withContext_some (hc.trans h)]; exact hk a

theorem sameEffect_withNoData {data : Bytes} {k k' : Result} (hk : SameEffect s s' c k k') :
    SameEffect s s' c (withNoData s data k) (withNoData s' data k') := by
  by_cases h : data = []
  · subst h; exact hk
  · rw [withNoData_of_ne h, withNoData_of_ne h]; exact .answer .badOperand .none

/-- An accumulator command reads its own context, the parameters and its DATA, and nothing else. -/
theorem exec_sameEffect {i : Instr} (hi : contextOf i = some c) (hc : s'.acc[c.toNat]? = s.acc[c.toNat]?)
    (hcfg : s'.cfg = s.cfg) : SameEffect s s' c (exec i s) (exec i s') := by
  cases i <;> cases hi
  case accInit | accReset => exact sameEffect_withContext hc fun _ => sameEffect_withNoData (.context _)
  case accWrite data =>
    refine sameEffect_withContext hc fun a => ?_
    rw [hcfg]
    split
    · exact .stop _
    · exact .context _
  case accSum => exact sameEffect_withContext hc fun _ => .answer _ _
  case accSum128 => exact sameEffect_withContext hc fun _ => sameEffect_withNoData (.digest _ _)

/-- With all contexts alike, they are alike after the command too, and so is the answer. -/
theorem SameEffect.sameContextsAndAnswer {r r' : Result} (h : SameEffect s s' c r r') (hacc : s.acc = s'.acc) :
    SameContextsAndAnswer r r' := by
  cases h with
  | answer | digest => exact ⟨hacc, by simp⟩
  | context a => exact ⟨congrArg (List.set · c.toNat a) hacc, by simp⟩
  | stop => exact rfl

theorem sameContextsAndAnswer_exec {i : Instr} (hi : contextOf i = some c) (hacc : s.acc = s'.acc) (hcfg : s.cfg = s'.cfg) :
    SameContextsAndAnswer (exec i s) (exec i s') :=
  (exec_sameEffect hi (by rw [hacc]) hcfg.symm).sameContextsAndAnswer hacc

/-- An accumulator command that goes on with some contexts goes on with others too, if its own is the same, and does the same
to all but those others. -/
theorem exec_with_acc {i : Instr} {t : State} (hi : contextOf i = some c) {acc : List AccCtx}
    (hc : acc[c.toNat]? = s.acc[c.toNat]?) (h : exec i s = .next t) :
    ∃ t', exec i { s with acc := acc } = .next t' ∧ t'.acc[c.toNat]? = t.acc[c.toNat]? ∧
      { t' with acc := t.acc } = t := by
  have heff := exec_sameEffect (s' := { s with acc := acc }) hi hc rfl
  rw [h] at heff
  generalize exec i { s with acc := acc } = r at heff
  cases heff with
  | answer | digest => exact ⟨_, rfl, hc, rfl⟩
  | context a => exact ⟨_, rfl, by simp [List.getElem?_set_self', hc], rfl⟩

/-- An accumulator command does not see what is still pending. -/
theorem exec_with_pending {i : Instr} {t : State} (hi : contextOf i = some c) (h : exec i s = .next t)
    (events : List HostEvent) : exec i { s with pending := events } = .next { t with pending := events } := by
  have heff := exec_sameEffect (s := s) (s' := { s with pending := events }) hi rfl rfl
  rw [h] at heff
  generalize exec i { s with pending := events } = r at heff
  cases heff <;> rfl

end sameEffect

/-- A command that names a context writes at no other index of the context bank. -/
theorem ContextsAfter.getElem?_of_index_ne {acc acc' : List AccCtx} {i : Instr} {c : BitVec 4}
    (h : ContextsAfter acc i acc') (hi : contextOf i = some c) {j : Nat} (hj : j ≠ c.toNat) : acc'[j]? = acc[j]? := by
  cases h with
  | same => rfl
  | init | restart | absorb => cases hi; exact List.getElem?_set_ne hj.symm

end Sys2Proof.Machine

namespace Sys2Proof

open Machine

/-- Settles O39: a query leaves the contexts and the parameters, and nothing else is read by an accumulator command. -/
theorem queriesLeaveTheStreamAlone : Obligations.QueriesLeaveTheStreamAlone := by
  intro s q t i c c' data hq h
  have hacc : t.acc = s.acc := by
    rcases hq with rfl | rfl <;> exact (exec_contextsAfter h).eq_of_no_write nofun nofun nofun
  obtain ⟨_, _, -, -, -, hcfg, -⟩ := exec_answers h
  exact ⟨hacc, fun hi => sameContextsAndAnswer_exec hi hacc hcfg⟩

/-- Settles O40, from the contexts a command can leave and from what it reads. -/
theorem contextsAreIndependent : Obligations.ContextsAreIndependent := fun _ _ hi =>
  ⟨fun _ _ h _ hj => (exec_contextsAfter h).getElem?_of_index_ne hi hj, fun _ _ _ _ hc h => exec_with_acc hi hc h⟩

end Sys2Proof
end

section
/-! Streams (spec/43_accumulator.md R239, R240, R242): a context that holds a stream is determined by it, and its digest is
the one-shot hash of it. So a sequence of commands need only be followed by the stream it builds up. -/

namespace Sys2Proof.Machine

open Sys2Proof.Claims

/-! ### A context and its stream -/

/-- The digest of a context is HASH128_FN of the stream it holds (R240). -/
theorem AccCtx.Holds.accDigest_eq {a : AccCtx} {h : Word64 × Bytes} (ha : a.Holds h) :
    accDigest a = hash128Fn h.2 h.1 := by
  obtain ⟨-, htail, htotal, blocks, nb, hstream, hblocks, hlanes⟩ := ha
  rw [accDigest, hlanes, htotal, hstream, hash128Fn_append hblocks (Nat.lt_succ_of_le htail), List.length_append, hblocks]

/-- Two contexts that hold one stream are equal: its whole blocks and its tail are what they are by its length. -/
theorem AccCtx.Holds.unique {a b : AccCtx} {h : Word64 × Bytes} (ha : a.Holds h) (hb : b.Holds h) : a = b := by
  obtain ⟨haseed, hatail, hatotal, blocks, nb, hastream, hablocks, halanes⟩ := ha
  obtain ⟨hbseed, hbtail, hbtotal, blocks', nb', hbstream, hbblocks, hblanes⟩ := hb
  have hsplit : blocks ++ a.tail = blocks' ++ b.tail := hastream.symm.trans hbstream
  have hlen := congrArg List.length hsplit
  rw [List.length_append, List.length_append] at hlen
  obtain rfl : nb = nb' := by omega
  obtain ⟨rfl, htail⟩ := List.append_inj hsplit (hablocks.trans hbblocks.symm)
  exact AccCtx.eq_of_fields (haseed.trans hbseed.symm) (halanes.trans hblanes.symm) htail (hatotal.trans hbtotal.symm)

/-! ### Instructions one after the other -/

theorem execAll_cons_next {i : Instr} {s t : State} (h : exec i s = .next t) (rest : List Instr) :
    execAll (i :: rest) s = execAll rest t := by
  rw [execAll, h]

theorem execAll_cons_inv {i : Instr} {rest : List Instr} {s t : State} (h : execAll (i :: rest) s = .next t) :
    ∃ u, exec i s = .next u ∧ execAll rest u = .next t := by
  cases hi : exec i s with
  | next u => exact ⟨u, rfl, (execAll_cons_next hi rest).symm.trans h⟩
  | fault | refused => rw [execAll, hi] at h; cases h

theorem execAll_append_next {is : List Instr} {s t : State} (h : execAll is s = .next t) (rest : List Instr) :
    execAll (is ++ rest) s = execAll rest t := by
  induction is generalizing s with
  | nil => cases h; rfl
  | cons i is ih =>
    obtain ⟨u, hi, his⟩ := execAll_cons_inv h
    rw [List.cons_append, execAll_cons_next hi, ih his]

/-- Instructions change no parameter (R11). -/
theorem execAll_keeps_cfg {is : List Instr} {s t : State} (h : execAll is s = .next t) : t.cfg = s.cfg := by
  induction is generalizing s with
  | nil => cases h; rfl
  | cons i is ih =>
    obtain ⟨u, hi, his⟩ := execAll_cons_inv h
    obtain ⟨_, _, -, -, -, hcfg, -⟩ := exec_answers hi
    exact (ih his).trans hcfg

/-- A run over presented accumulator commands is the commands one after the other, and leaves what was presented after
them. -/
theorem run_encode {is : List Instr} {s t : State} (h : execAll is s = .next t)
    (hctx : ∀ i ∈ is, ∃ c, contextOf i = some c) (hlen : ∀ i ∈ is, i.data.length ≤ s.cfg.maxPayload)
    (rest : List HostEvent) :
    Host.Core.run core is.length { s with pending := (is.map encode).map .transaction ++ rest } =
      .next { t with pending := rest } := by
  induction is generalizing s with
  | nil => cases h; rfl
  | cons i is ih =>
    obtain ⟨u, hi, his⟩ := execAll_cons_inv h
    obtain ⟨⟨c, hc⟩, hctx⟩ := List.forall_mem_cons.mp hctx
    obtain ⟨hdata, hlen⟩ := List.forall_mem_cons.mp hlen
    obtain ⟨_, _, -, -, -, hcfg, -⟩ := exec_answers hi
    let events := (is.map encode).map .transaction ++ rest
    have hstep : step { s with pending := .transaction (encode i) :: events } = .next { u with pending := events } :=
      (step_head_ok rfl (by rwa [encode_data]) (decodeOfEncode i)).trans (exec_with_pending hc hi events)
    exact (run_succ_next hstep).trans (ih his hctx (by rwa [hcfg]))

/-! ### Commands and the stream they build up -/

/-- The contexts are those of `base`, but for context `c`, which holds the stream `h.2` from the seed `h.1`; `rs` are the
responses so far. -/
structure State.Streams (s : State) (base : List AccCtx) (c : BitVec 4) (rs : List Response)
    (h : Word64 × Bytes) : Prop where
  index : c.toNat < base.length
  contexts : ∃ a, s.acc = base.set c.toNat a ∧ a.Holds h
  responses : s.responses = rs

/-- The stream determines all contexts. -/
theorem State.Streams.acc_eq {s t : State} {base : List AccCtx} {c : BitVec 4} {rs rs' : List Response}
    {h : Word64 × Bytes} (hs : s.Streams base c rs h) (ht : t.Streams base c rs' h) : s.acc = t.acc := by
  obtain ⟨-, ⟨a, hsacc, ha⟩, -⟩ := hs
  obtain ⟨-, ⟨b, htacc, hb⟩, -⟩ := ht
  rw [hsacc, htacc, ha.unique hb]

/-- ACC_INIT starts an empty stream (R230). -/
theorem exec_accInit_streams {s : State} {c : BitVec 4} (hc : c.toNat < s.nAcc) (seed : Option Word64) :
    ∃ t, exec (.accInit c seed []) s = .next t ∧ t.Streams s.acc c (s.responses ++ [⟨.ok, .none⟩]) (seed64 seed, []) :=
  ⟨_, exec_accInit_next (List.getElem?_eq_getElem hc) seed, hc, ⟨_, rfl, AccCtx.holds_fresh _⟩, rfl⟩

section streams

variable {s : State} {base : List AccCtx} {c : BitVec 4} {rs : List Response} {seed : Word64} {stream : Bytes}
  (hs : s.Streams base c rs (seed, stream))
include hs

/-- ACC_WRITE of what keeps the stream shorter than 2^64 bytes goes on and adds to it (R233, R243). -/
theorem State.Streams.write {d : Bytes} (hlen : stream.length + d.length < 2 ^ 64) :
    ∃ t, exec (.accWrite c d) s = .next t ∧ t.Streams base c (rs ++ [⟨.ok, .none⟩]) (seed, stream ++ d) := by
  obtain ⟨hc, ⟨a, hacc, ha⟩, hresp⟩ := hs
  have hget : s.acc[c.toNat]? = some a := by rw [hacc, List.getElem?_set_self hc]
  have htotal : a.total.toNat ≤ stream.length := by
    obtain ⟨-, -, htotal, -⟩ := ha
    rw [htotal, BitVec.toNat_ofNat]
    exact Nat.mod_le _ _
  have hov : ¬ OverflowFaults s.cfg a d := fun ⟨_, hsum⟩ => by omega
  refine ⟨_, exec_accWrite_next hget hov, hc, ⟨_, ?_, ha.absorb d⟩, hresp ▸ rfl⟩
  exact (congrArg (List.set · c.toNat _) hacc).trans (List.set_set ..)

/-- Writes of any chunks add them in order. -/
theorem State.Streams.writes {chunks : List Bytes} (hlen : stream.length + chunks.flatten.length < 2 ^ 64) :
    ∃ t, execAll (chunks.map (.accWrite c)) s = .next t ∧
      t.Streams base c (rs ++ List.replicate chunks.length ⟨.ok, .none⟩) (seed, stream ++ chunks.flatten) := by
  induction chunks generalizing s rs stream with
  | nil => exact ⟨s, rfl, by simpa using hs⟩
  | cons d chunks ih =>
    rw [List.flatten_cons, List.length_append] at hlen
    obtain ⟨u, hwrite, hu⟩ := hs.write (d := d) (by omega)
    obtain ⟨t, hwrites, ht⟩ := ih hu (by rw [List.length_append]; omega)
    exact ⟨t, (execAll_cons_next hwrite _).trans hwrites, by simpa [List.replicate_succ] using ht⟩

/-- ACC_SUM128 answers the one-shot hash of the stream, which stays (R236, R237, R240). -/
theorem State.Streams.sum128 :
    ∃ t, exec (.accSum128 c []) s = .next t ∧
      t.Streams base c (rs ++ [⟨.ok, .lanes (hash128Fn stream seed)⟩]) (seed, stream) := by
  obtain ⟨hc, ⟨a, hacc, ha⟩, hresp⟩ := hs
  have hget : s.acc[c.toNat]? = some a := by rw [hacc, List.getElem?_set_self hc]
  refine ⟨_, exec_accSum128_next hget, hc, ⟨a, hacc, ha⟩, ?_⟩
  rw [State.respond_responses, State.setDigest_responses, hresp, ha.accDigest_eq]

end streams

/-- The sequence of R240: an initialisation, writes of any chunks, and the query. -/
def oneShotCommands (c : BitVec 4) (seed : Option Word64) (chunks : List Bytes) : List Instr :=
  .accInit c seed [] :: chunks.map (.accWrite c) ++ [.accSum128 c []]

theorem forall_mem_oneShotCommands {P : Instr → Prop} {c : BitVec 4} {seed : Option Word64} {chunks : List Bytes} :
    (∀ i ∈ oneShotCommands c seed chunks, P i) ↔
      P (.accInit c seed []) ∧ (∀ d ∈ chunks, P (.accWrite c d)) ∧ P (.accSum128 c []) := by
  simp only [oneShotCommands, List.cons_append, List.forall_mem_cons, List.forall_mem_append, List.forall_mem_map,
    List.not_mem_nil, false_implies, implies_true, and_true]

theorem execAll_oneShotCommands {s : State} {c : BitVec 4} (hc : c.toNat < s.nAcc) (seed : Option Word64)
    {chunks : List Bytes} (hlen : chunks.flatten.length < 2 ^ 64) :
    ∃ t, execAll (oneShotCommands c seed chunks) s = .next t ∧
      t.responses = s.responses ++ List.replicate (chunks.length + 1) ⟨.ok, .none⟩ ++
        [⟨.ok, .lanes (hash128Fn chunks.flatten (seed.getD 0))⟩] := by
  obtain ⟨s₁, hinit, hs₁⟩ := exec_accInit_streams hc seed
  obtain ⟨s₂, hwrites, hs₂⟩ := hs₁.writes (chunks := chunks) (by simpa using hlen)
  obtain ⟨s₃, hsum, hs₃⟩ := hs₂.sum128
  refine ⟨s₃, ?_, ?_⟩
  · rw [oneShotCommands, List.cons_append, execAll_cons_next hinit, execAll_append_next hwrites,
      execAll_cons_next hsum, execAll]
  · simp [hs₃.responses, List.replicate_succ, seed64]

end Sys2Proof.Machine

namespace Sys2Proof

open Machine Claims

/-- Settles O41: the chunks and the whole leave one stream, so the same contexts. -/
theorem chunkingInvariance : Obligations.ChunkingInvariance := by
  intro s c seed chunks hc hlen
  have hlen' : ([] : Bytes).length + chunks.flatten.length < 2 ^ 64 := by rwa [List.length_nil, Nat.zero_add]
  obtain ⟨u, hinit, hu⟩ := exec_accInit_streams hc seed
  obtain ⟨t, hwrites, ht⟩ := hu.writes hlen'
  obtain ⟨t', hwrite, ht'⟩ := hu.write hlen'
  have hchunks := (execAll_cons_next hinit _).trans hwrites
  have hwhole : execAll [.accInit c seed [], .accWrite c chunks.flatten] s = .next t' := by
    rw [execAll_cons_next hinit, execAll_cons_next hwrite, execAll]
  have hacc := ht.acc_eq ht'
  have hcfg : t.cfg = t'.cfg := (execAll_keeps_cfg hchunks).trans (execAll_keeps_cfg hwhole).symm
  exact ⟨t, t', hchunks, hwhole, hacc, fun _ => sameContextsAndAnswer_exec rfl hacc hcfg,
    sameContextsAndAnswer_exec rfl hacc hcfg⟩

/-- Settles O42: the run is the presented commands one after the other, and the last answers the hash of the stream. -/
theorem oneShotEquivalence : Obligations.OneShotEquivalence := by
  intro s c seed chunks rest hc hlen hpayload hp
  obtain ⟨t, hexec, hresp⟩ := execAll_oneShotCommands hc seed hlen
  have hctx : ∀ i ∈ oneShotCommands c seed chunks, ∃ c, contextOf i = some c :=
    forall_mem_oneShotCommands.mpr ⟨⟨c, rfl⟩, fun _ _ => ⟨c, rfl⟩, ⟨c, rfl⟩⟩
  have hdata : ∀ i ∈ oneShotCommands c seed chunks, i.data.length ≤ s.cfg.maxPayload :=
    forall_mem_oneShotCommands.mpr ⟨Nat.zero_le _, hpayload, Nat.zero_le _⟩
  have hpending : s.pending = ((oneShotCommands c seed chunks).map encode).map .transaction ++ rest := by
    simp [hp, oneShotCommands, Function.comp_def]
  have hnumber : (oneShotCommands c seed chunks).length = chunks.length + 2 := by simp [oneShotCommands]
  have hrun := run_encode hexec hctx hdata rest
  rw [← hpending, hnumber] at hrun
  exact ⟨_, hrun, rfl, hresp⟩

/-- Settles O44: each query answers the hash of the stream so far and leaves the stream. -/
theorem queryMidStream : Obligations.QueryMidStream := by
  intro s c seed d e hc hlen
  obtain ⟨s₁, hinit, hs₁⟩ := exec_accInit_streams hc seed
  obtain ⟨s₂, hwrite, hs₂⟩ := hs₁.write (d := d) (by rw [List.length_nil]; omega)
  obtain ⟨s₃, hsum, hs₃⟩ := hs₂.sum128
  obtain ⟨s₄, hwrite', hs₄⟩ := hs₃.write (d := e) (by simpa using hlen)
  obtain ⟨s₅, hsum', hs₅⟩ := hs₄.sum128
  refine ⟨s₅, ?_, ?_⟩
  · rw [execAll_cons_next hinit, execAll_cons_next hwrite, execAll_cons_next hsum, execAll_cons_next hwrite',
      execAll_cons_next hsum', execAll]
  · simp [hs₅.responses, seed64]

end Sys2Proof
end

section
/-! The status command (spec/44_status.md R260): the layout of the word it answers, and what refuses it. -/

namespace Sys2Proof.Machine

section statusWord

variable (sticky : BitVec 7) (last : BitVec 8)

/-- The layout of R42, bit by bit; STICKY has no bits above its seventh, so neither has the word. -/
theorem statusWord_getLsbD (j : Nat) :
    (statusWord sticky last).getLsbD j = if j < 8 then last.getLsbD j else sticky.getLsbD (j - 8) := by
  rw [statusWord, BitVec.getLsbD_or, BitVec.getLsbD_shiftLeft, BitVec.getLsbD_setWidth, BitVec.getLsbD_setWidth]
  by_cases hlow : j < 8
  · have hword : j < 32 := by omega
    simp [hlow, hword]
  · have hlast : last.getLsbD j = false := BitVec.getLsbD_of_ge _ _ (by omega)
    by_cases hword : j < 32
    · have hshift : j - 8 < 32 := by omega
      simp [hlow, hword, hshift, hlast]
    · have hsticky : sticky.getLsbD (j - 8) = false := BitVec.getLsbD_of_ge _ _ (by omega)
      simp [hlow, hlast, hsticky]

theorem statusWord_last : (statusWord sticky last).extractLsb' 0 8 = last :=
  BitVec.eq_of_getLsbD_eq fun j hj => by
    simp [statusWord_getLsbD, hj]

theorem statusWord_sticky : (statusWord sticky last).extractLsb' 8 7 = sticky :=
  BitVec.eq_of_getLsbD_eq fun j hj => by
    simp [statusWord_getLsbD, hj]

theorem statusWord_reserved : (statusWord sticky last).extractLsb' 15 17 = 0 :=
  BitVec.eq_of_getLsbD_eq fun j hj => by
    have hhigh : ¬ 15 + j < 8 := by omega
    have hsticky : sticky.getLsbD (15 + j - 8) = false := BitVec.getLsbD_of_ge _ _ (by omega)
    simp [statusWord_getLsbD, hhigh, hsticky]

end statusWord

end Sys2Proof.Machine

namespace Sys2Proof

open Machine

/-- Settles O28, from the words of its row, the layout of the STATUS word that its success answers, and check 5. -/
theorem rdStatusCommand : Obligations.RdStatusCommand :=
  ⟨wordFor_opcode .rdStatus,
    fun s => ⟨_, s.statusReg, exec_rdStatus_next s, succeeds_respond s _, rfl, rfl, statusWord_last _ _,
      statusWord_sticky _ _, statusWord_reserved _ _⟩,
    fun _ _ h => withNoData_fails h _⟩

end Sys2Proof
end

section
/-! The outcome of a step that takes a transaction (spec/60_exceptions.md R272, R273, R277): the first failing check of R273
is the answer, an error touches STATUS only, and nothing but a long DATA and an overflowing write stops the machine. -/

namespace Sys2Proof.Machine

open Sys2Proof.Claims

/-! ### What a result that checks decide can be -/

section checked

variable {s : State} {v : Value} {stops : Prop} {e : Option Status} {r : Result}

theorem Checked.of_iff {stops' : Prop} (h : Checked s v stops e r) (hiff : stops ↔ stops') : Checked s v stops' e r :=
  propext hiff ▸ h

theorem Checked.eq_raise {code : Status} (h : Checked s v stops (some code) r) : r = raise s code := by
  cases h; rfl

theorem Checked.succeeds (h : Checked s v stops none r) (hgo : ¬ stops) : ∃ t, r = .next t ∧ Succeeds s t v := by
  cases h with
  | success hs => exact ⟨_, rfl, hs⟩
  | overflow hstops => exact absurd hstops hgo

/-- A result that goes on is a failure or a success (R272). -/
theorem Checked.fails_or_succeeds {t : State} (h : Checked s v stops e (.next t)) :
    (∃ code, Fails s t code) ∨ Succeeds s t v := by
  cases h with
  | error code => exact .inl ⟨code, fails_respond s code⟩
  | success hs => exact .inr hs

theorem Checked.ne_refused (h : Checked s v stops e r) (reason : Refusal) : r ≠ .refused reason := by
  cases h <;> exact nofun

theorem Checked.fault_inv {f : Fault} (h : Checked s v stops e (.fault f)) : f = .totalOverflow ∧ e = none ∧ stops := by
  cases h with
  | overflow hstops => exact ⟨rfl, rfl, hstops⟩

end checked

/-! ### The write that has no meaning, as an instruction and as a transaction -/

/-- R233's overflowing write is the one row of R92 that can stop. -/
theorem stopsAtOverflow_iff {t : Transaction} {i : Instr} (hd : decode t = .ok i) (s : State) :
    StopsAtOverflow s i ↔ OverflowStops s t := by
  obtain ⟨op, hcode, -, rfl⟩ := decode_ok_inv hd
  have hopc : t.cmd.extractLsb' 0 8 = op.code := hcode.symm
  rw [OverflowStops, hopc]
  cases op
  case accWrite =>
    constructor
    · rintro ⟨a, ha, hfault, hsum⟩
      exact ⟨rfl, hfault, a, ha, hsum⟩
    · rintro ⟨-, hfault, a, ha, hsum⟩
      exact ⟨a, ha, hfault, hsum⟩
  case hash32 | hash128 | digLanes | digBytes | digPut | accInit | accReset | accSum | accSum128 | rdStatus =>
    refine iff_of_false id fun h => ?_
    obtain ⟨hwrite, -⟩ := h
    exact absurd hwrite (by decide)

theorem exec_fault_of_stopsAtOverflow {i : Instr} {s : State} (h : StopsAtOverflow s i) :
    exec i s = .fault .totalOverflow := by
  unfold StopsAtOverflow at h
  split at h
  · obtain ⟨a, ha, hov⟩ := h
    exact exec_accWrite_fault ha hov
  · exact h.elim

/-! ### The step of a transaction -/

section transaction

variable {s : State} {t : Transaction}

/-- A step ends as R273's check of the transaction decides. -/
theorem step_present_checked (hlen : t.data.length ≤ s.cfg.maxPayload) :
    ∃ v, Checked s v (OverflowStops s t) (check s t) (step (s.present t)) := by
  cases hd : decode t with
  | error code =>
    rw [check_of_decode_error hd, step_present_error hlen hd]
    exact ⟨.none, .error code⟩
  | ok i =>
    rw [check_of_decode_ok hd, step_present_ok hlen hd]
    exact ⟨successValue s i, (exec_checked i s).of_iff (stopsAtOverflow_iff hd s)⟩

theorem step_present_overflow (hlen : t.data.length ≤ s.cfg.maxPayload) (hcheck : check s t = none)
    (hov : OverflowStops s t) : step (s.present t) = .fault .totalOverflow := by
  cases hd : decode t with
  | error code => rw [check_of_decode_error hd] at hcheck; cases hcheck
  | ok i =>
    rw [step_present_ok hlen hd]
    exact exec_fault_of_stopsAtOverflow ((stopsAtOverflow_iff hd s).mpr hov)

/-- A transaction whose step goes on fails or succeeds. -/
theorem step_present_fails_or_succeeds {s' : State} (h : step (s.present t) = .next s') :
    (∃ code, Fails s s' code) ∨ ∃ v, Succeeds s s' v := by
  by_cases hlen : t.data.length ≤ s.cfg.maxPayload
  · obtain ⟨v, hchecked⟩ := step_present_checked hlen
    rw [h] at hchecked
    exact hchecked.fails_or_succeeds.imp_right fun hs => ⟨v, hs⟩
  · rw [step_present_long (Nat.not_le.mp hlen)] at h
    cases h

end transaction

theorem answers_of_fails {s t : State} {code : Status} (h : Fails s t code) : Answers s t code .none := by
  obtain ⟨hans, -⟩ := h
  exact hans

/-- The status of an answer is that of the one response that was added. -/
theorem status_eq_of_answers {s t : State} {st st' : Status} {v v' : Value} (h : Answers s t st v)
    (hresp : t.responses = s.responses ++ [⟨st', v'⟩]) : st = st' := by
  have hlast := last_response_of_answers h
  rw [hresp, List.getLast?_concat] at hlast
  cases hlast
  rfl

end Sys2Proof.Machine

namespace Sys2Proof

open Machine Claims

/-- Settles O9, from the result that R273's check decides. -/
theorem checkOrderDecidesTheResponse : Obligations.CheckOrderDecidesTheResponse := by
  intro s t hlen
  obtain ⟨v, hchecked⟩ := step_present_checked hlen
  refine ⟨fun code hcode => ?_, step_present_overflow hlen, fun hnone hgo => ?_⟩
  · rw [hcode] at hchecked
    exact ⟨_, hchecked.eq_raise, fails_respond s code⟩
  · rw [hnone] at hchecked
    obtain ⟨s', hstep, hs⟩ := hchecked.succeeds hgo
    exact ⟨s', v, hstep, hs⟩

/-- Settles O10: a step that goes on fails with the status it answers, or it succeeds with `ok`. -/
theorem failureTouchesOnlyStatus : Obligations.FailureTouchesOnlyStatus := by
  intro s t s' st v hstep hresp hne
  rcases step_present_fails_or_succeeds hstep with ⟨code, hfails⟩ | ⟨w, hans, -⟩
  · exact status_eq_of_answers (answers_of_fails hfails) hresp ▸ hfails
  · exact absurd (status_eq_of_answers hans hresp).symm hne

/-- Settles O46, by the oldest event: none and a reset go on, and a transaction ends as R273's check decides unless its DATA
is too long. -/
theorem onlyTwoStops : Obligations.OnlyTwoStops := by
  intro s
  rcases hp : s.pending with _ | ⟨t | _, rest⟩
  case nil => rw [step_idle hp]; exact ⟨nofun, nofun⟩
  case cons.hardwareReset => rw [step_reset hp]; exact ⟨nofun, nofun⟩
  case cons.transaction =>
    by_cases hlen : t.data.length ≤ s.cfg.maxPayload
    · obtain ⟨v, hchecked⟩ := step_present_checked (s := { s with pending := rest }) hlen
      rw [← State.eq_present hp] at hchecked
      refine ⟨hchecked.ne_refused, fun f hf => ?_⟩
      rw [hf] at hchecked
      obtain ⟨hfault, hcheck, hov⟩ := hchecked.fault_inv
      exact ⟨t, rest, rfl, .inr ⟨hfault, hlen, hcheck, hov⟩⟩
    · have hlong : s.cfg.maxPayload < t.data.length := Nat.not_le.mp hlen
      rw [step_head_long hp hlong]
      refine ⟨nofun, ?_⟩
      rintro _ ⟨⟩
      exact ⟨t, rest, rfl, .inl ⟨rfl, hlong⟩⟩

end Sys2Proof
end

section
/-! Hardware reset (spec/70_reset_and_hazards.md R300, R301, R303): the state it leaves, what nothing else clears, and what a
core can do right after it. -/

namespace Sys2Proof.Machine

open Sys2Proof.Claims

/-! ### The reset state and its contexts -/

/-- The reset value of a context, written out (R300). -/
theorem AccCtx.fresh_zero : AccCtx.fresh 0 = ⟨0, 0, 0, [], 0⟩ := rfl

section resetWith

variable {n : Nat} (cfg : Config) {c : BitVec 4}

theorem State.resetWith_nAcc : (State.resetWith n cfg).nAcc = n := List.length_replicate

theorem State.lt_resetWith_nAcc (hc : c.toNat < n) : c.toNat < (State.resetWith n cfg).nAcc :=
  hc.trans_eq (State.resetWith_nAcc cfg).symm

theorem State.resetWith_context (hc : c.toNat < n) : (State.resetWith n cfg).acc[c.toNat]? = some (AccCtx.fresh 0) :=
  List.getElem?_replicate_of_lt hc

/-- Right after reset each context holds the empty stream of seed 0, as if it had been initialised (R303). -/
theorem State.resetWith_streams (hc : c.toNat < n) :
    (State.resetWith n cfg).Streams (State.resetWith n cfg).acc c [] (0, []) :=
  ⟨State.lt_resetWith_nAcc cfg hc, ⟨AccCtx.fresh 0, List.set_replicate_self.symm, AccCtx.holds_fresh 0⟩, rfl⟩

/-- A context that is there passes check 3 of R273. -/
theorem checkContext_resetWith (hc : c.toNat < n) (rest : Option Status) :
    checkContext (State.resetWith n cfg) c rest = rest :=
  if_neg (Nat.not_le.mpr (State.lt_resetWith_nAcc cfg hc))

/-- The first write to a context counts from 0, so it does not reach 2^64. -/
theorem not_stopsAtOverflow_resetWith (hc : c.toNat < n) {data : Bytes} (hlen : data.length < 2 ^ 64) :
    ¬ StopsAtOverflow (State.resetWith n cfg) (.accWrite c data) := by
  rintro ⟨a, ha, -, hsum⟩
  obtain rfl : AccCtx.fresh 0 = a := Option.some.inj ((State.resetWith_context cfg hc).symm.trans ha)
  exact absurd hsum (by simpa using hlen)

end resetWith

/-! ### Outcomes by the checks of R273 -/

theorem exec_succeeds {i : Instr} {s : State} (hcheck : firstError s i = none) (hgo : ¬ StopsAtOverflow s i) :
    ∃ t v, exec i s = .next t ∧ Succeeds s t v := by
  have hchecked := exec_checked i s
  rw [hcheck] at hchecked
  obtain ⟨t, hexec, hs⟩ := hchecked.succeeds hgo
  exact ⟨t, _, hexec, hs⟩

theorem exec_fails {i : Instr} {s : State} {code : Status} (hcheck : firstError s i = some code) :
    ∃ t, exec i s = .next t ∧ Fails s t code := by
  have hchecked := exec_checked i s
  rw [hcheck] at hchecked
  exact ⟨_, hchecked.eq_raise, fails_respond s code⟩

/-! ### The valid bit of DIG -/

theorem exec_dig_isSome_mono {i : Instr} {s t : State} (h : exec i s = .next t) (hdig : s.dig.isSome = true) :
    t.dig.isSome = true := by
  have he := exec_effect i s
  rw [h] at he
  cases he with
  | error | answer | context => exact hdig
  | digest => rfl

/-- A step that does not take a reset signal leaves a valid DIG valid. -/
theorem step_dig_isSome_mono {s t : State} (h : step s = .next t) (hreset : ∀ rest, s.pending ≠ .hardwareReset :: rest)
    (hdig : s.dig.isSome = true) : t.dig.isSome = true := by
  cases stepNext_of_step h with
  | idle | illegal => exact hdig
  | reset hp => exact absurd hp (hreset _)
  | instr _ _ _ hexec => exact exec_dig_isSome_mono hexec hdig

end Sys2Proof.Machine

namespace Sys2Proof

open Machine Claims

/-- Settles O47: a step of a transaction takes no reset signal, and an initialisation or reset of a context writes at that
index at most. -/
theorem onlyHardwareResetClears : Obligations.OnlyHardwareResetClears := by
  refine ⟨fun s t s' h => ?_, fun s rest hp => ⟨_, step_reset hp, rfl, rfl⟩, fun s t c seed data h => ?_⟩
  · have hreset : ∀ rest, (s.present t).pending ≠ .hardwareReset :: rest := nofun
    exact ⟨fun _ => step_sticky_mono h hreset, step_dig_isSome_mono (s := s.present t) h hreset⟩
  · rcases h with h | h <;>
      exact ⟨exec_keeps_dig h nofun fun _ _ => nofun, fun _ => (exec_contextsAfter h).getElem?_of_index_ne rfl⟩

/-- Settles O49: on the reset state no check fails but that of the digest's valid bit, and each context holds the empty stream
of seed 0. -/
theorem noInitialisationIsNeeded : Obligations.NoInitialisationIsNeeded := by
  intro n cfg seed c data hc hlen s
  have hctx := checkContext_resetWith cfg hc
  refine ⟨?_, ?_, ?_⟩
  · simp only [List.forall_mem_cons]
    exact ⟨exec_succeeds rfl id, exec_succeeds rfl id, exec_succeeds (hctx _) id, exec_succeeds (hctx _) id,
      exec_succeeds (hctx _) (not_stopsAtOverflow_resetWith cfg hc hlen), exec_succeeds (hctx _) id,
      exec_succeeds (hctx _) id, exec_succeeds rfl id, nofun⟩
  · simp only [List.forall_mem_cons]
    exact ⟨exec_fails rfl, exec_fails rfl, exec_fails rfl, nofun⟩
  · have hempty : ([] : Bytes).length + data.length < 2 ^ 64 := by rwa [List.length_nil, Nat.zero_add]
    obtain ⟨u, hwrite, hu⟩ := (State.resetWith_streams cfg hc).write hempty
    obtain ⟨t, hsum, ht⟩ := hu.sum128
    exact ⟨t, by rw [execAll_cons_next hwrite, execAll_cons_next hsum, execAll], ht.responses⟩

/-- Settles O1, from what a reset writes to every context, and the context that ACC_INIT writes. -/
theorem resetLeavesTheSpecifiedState : Obligations.ResetLeavesTheSpecifiedState := by
  refine ⟨fun n cfg => ⟨State.resetWith_nAcc cfg, fun _ ha => ?_, rfl, rfl, rfl⟩,
    fun s rest hp => ⟨_, step_reset hp, List.length_map _, fun _ ha => ?_, rfl, rfl, rfl⟩, fun s c hc => ?_⟩
  · rw [List.eq_of_mem_replicate ha, AccCtx.fresh_zero]
  · obtain ⟨_, -, rfl⟩ := List.mem_map.mp ha
    exact AccCtx.fresh_zero
  · have ha := List.getElem?_eq_getElem hc
    exact ⟨_, exec_accInit_next ha none, setContext_acc_self ha _⟩

end Sys2Proof
end
